-- ==== Sys2Proof/Word.lean ====
section
/-! DEFINITION. The value types of the engine: words, bytes, the command word, and the fixed-size byte and word groups
(spec/00_scope.md R6, R8, R9). Bit 0 is the least significant bit of each (R8). Every value is unsigned. -/

namespace Sys2Proof

/-- A byte, bits 7 to 0 (00_scope.md R8). -/
abbrev Byte := BitVec 8

/-- A 32-bit unsigned word; `+` on it wraps modulo 2^32 (00_scope.md R6, R9). -/
abbrev Word := BitVec 32

/-- The 64-bit unsigned value of TOTAL_BITS and of the length field (00_scope.md R6, R9). -/
abbrev BitCount := BitVec 64

/-- One 16-bit command word CMD (30_encoding.md R60). -/
abbrev CmdWord := BitVec 16

/-- A block: 64 bytes of padded message, byte 0 first (00_scope.md R15). -/
abbrev Block := Vector Byte 64

/-- Eight 32-bit words: the hash state H[0..7], the IV, the input and the output of Compress. -/
abbrev HashWords := Vector Word 8

/-- A digest: 32 bytes, byte 0 first (00_scope.md R15). -/
abbrev Digest := Vector Byte 32

end Sys2Proof
end

