-- ==== Sys2Proof/Config.lean ====
section
/-! DEFINITION. What the spec leaves open as a parameter (00_scope.md R7). The sizes it fixes (R6) are in the types. -/

namespace Sys2Proof.Config

/-- The parameters 00_scope.md R7 leaves open (92_eei_decisions.md D15, D18): how many engines a platform has, and the
time of an INIT, of an UPDATE without and with a Compress call, and of a FINALIZE. No rule depends on their values. -/
structure Params where
  nEngines        : Nat
  tInit           : Nat
  tUpdate         : Nat
  tUpdateCompress : Nat
  tFinalize       : Nat
deriving DecidableEq, Repr, Inhabited

/-- The parameters of the platform at hand: a constant no proof can see into (00_scope.md R7). -/
opaque params : Params

end Sys2Proof.Config
end

