-- ==== Sys2Proof/Syntax.lean ====
section
/-! DEFINITION. The commands (30_encoding.md R61), what decoding a word gives (R65), what the host can do to the engine
(R64, 70_reset_and_hazards.md R170, 20_memory.md R46), and the lines of the spec's assembler (30_encoding.md R66, R67). -/

namespace Sys2Proof

/-- The commands of the opcode map, one constructor for each row of spec/opcode_table.json (30_encoding.md R61). -/
inductive Instr where
  /-- INIT: start a new message (41_init_update.md R111). -/
  | init
  /-- UPDATE: add the message byte `b` (41_init_update.md R112). -/
  | update (b : Byte)
  /-- FINALIZE: end the message and return its digest (42_finalize.md R130). -/
  | finalize
deriving DecidableEq, Repr

/-- What a 16-bit word decodes to; "illegal" is a decoded value (30_encoding.md R65). -/
inductive Command where
  | instr (i : Instr)
  /-- ILLEGAL: one of the words 30_encoding.md R63 lists. -/
  | illegal
deriving DecidableEq, Repr

/-- One thing the host does to the engine, between commands (00_scope.md R17). -/
inductive HostAction where
  /-- Present the command word `w` (30_encoding.md R60). -/
  | command (w : CmdWord)
  /-- Assert reset; it has no command word (30_encoding.md R66, 70_reset_and_hazards.md R170). -/
  | reset
  /-- Sample STATUS (20_memory.md R46). -/
  | sampleStatus
deriving DecidableEq, Repr

/-- One line of the spec's assembler. An operand is the number written in the line; `AsmLine.wf` says which are legal
(30_encoding.md R66, R67). -/
inductive AsmLine where
  | init
  | update (v : Nat)
  | finalize
  /-- `RESET`: the host asserting reset, not a command. -/
  | reset
  /-- `.WORD v`: the raw 16-bit word `v`. -/
  | word (v : Nat)
  /-- The pseudo-instruction `UPDATE.BYTES`. -/
  | updateBytes (vs : List Nat)
deriving DecidableEq, Repr

end Sys2Proof
end

