-- ==== Sys2Proof/WellFormed.lean ====
section
/-! DEFINITION. Which terms are well formed: the 258 legal command words as 30_encoding.md R63 lists them, every command
(R62 makes every byte a legal operand), and the assembler lines whose numbers are in the ranges of R66. -/

namespace Sys2Proof

/-- The words 30_encoding.md R63 does not call illegal, as numbers: 0x0100, 0x0200 to 0x02FF, and 0x0300. -/
def legalWord (w : CmdWord) : Bool :=
  w.toNat == 0x0100 || (0x0200 ≤ w.toNat && w.toNat ≤ 0x02FF) || w.toNat == 0x0300

/-- Every command is well formed: INIT and FINALIZE have no operand, and every byte 0x00 to 0xFF is a legal operand of
UPDATE (30_encoding.md R62). -/
def Instr.wf : Instr → Bool
  | .init => true
  | .update _ => true
  | .finalize => true

/-- An assembler line is well formed when its numbers fit: a byte is 0 to 255, and `.WORD` places a 16-bit word
(30_encoding.md R66). -/
def AsmLine.wf : AsmLine → Bool
  | .init => true
  | .update v => v < 256
  | .finalize => true
  | .reset => true
  | .word v => v < 65536
  | .updateBytes vs => vs.all fun v => v < 256

end Sys2Proof
end

