-- ==== Sys2Proof/Decode.lean ====
section
/-! DEFINITION. The decoder of a command word (30_encoding.md R60 to R65), and after it the encoder, both from the
encoding tables of the spec. -/

namespace Sys2Proof

/-- `OP`, the opcode field CMD[15:8] (30_encoding.md R60). -/
def opField (w : CmdWord) : Byte := w.extractLsb' 8 8

/-- `DATA`, the data field CMD[7:0] (30_encoding.md R60). -/
def dataField (w : CmdWord) : Byte := w.extractLsb' 0 8

/-- The decoder, total on the 16-bit words (30_encoding.md R65). A reserved DATA field that is not 0x00 makes the word
illegal (R62), and so does every OP but 0x01, 0x02 and 0x03 (R63). -/
def decode (w : CmdWord) : Command :=
  if opField w = 0x01 then
    if dataField w = 0x00 then .instr .init else .illegal
  else if opField w = 0x02 then
    .instr (.update (dataField w))
  else if opField w = 0x03 then
    if dataField w = 0x00 then .instr .finalize else .illegal
  else
    .illegal

/-- The word of a command: OP in bits 15 to 8 and DATA in bits 7 to 0 (30_encoding.md R60, R61). -/
def encode : Instr → CmdWord
  | .init => 0x01#8 ++ 0x00#8
  | .update b => 0x02#8 ++ b
  | .finalize => 0x03#8 ++ 0x00#8

/-- The command word whose lowest `nbits` bits are those of `w`, the bits above them being 0. A command has exactly 16
bits (30_encoding.md R60), so bits of `w` from 16 on are no part of it. -/
def tableWord (nbits w : Nat) : CmdWord := BitVec.ofNat 16 (w % 2 ^ nbits)

/-- The command the decoder reads from the word of an opcode-table row, and none where the word is illegal. -/
def decodeTableWord (nbits w : Nat) : Option Instr :=
  match decode (tableWord nbits w) with
  | .instr i => some i
  | .illegal => none

end Sys2Proof
end

