-- ==== Sys2Proof/Machine/Words.lean ====
section
/-! DEFINITION. The word functions of SHA-256 (00_scope.md R10, R11; 40_compress.md R80 to R85) and the big-endian
packing helpers (00_scope.md R12; 20_memory.md R41). -/

namespace Sys2Proof.Machine

/-- Rotation right by `n` places, for 1 ≤ n ≤ 31 (00_scope.md R11). -/
def rotr (x : Word) (n : Nat) : Word := (x >>> n) ||| (x <<< (32 - n))

/-- Σ0 (40_compress.md R80). -/
def bigSigma0 (x : Word) : Word := rotr x 2 ^^^ rotr x 13 ^^^ rotr x 22

/-- Σ1 (40_compress.md R81). -/
def bigSigma1 (x : Word) : Word := rotr x 6 ^^^ rotr x 11 ^^^ rotr x 25

/-- σ0; its last term is a logical shift (40_compress.md R82). -/
def smallSigma0 (x : Word) : Word := rotr x 7 ^^^ rotr x 18 ^^^ (x >>> 3)

/-- σ1; its last term is a logical shift (40_compress.md R83). -/
def smallSigma1 (x : Word) : Word := rotr x 17 ^^^ rotr x 19 ^^^ (x >>> 10)

/-- Ch (40_compress.md R84). -/
def ch (x y z : Word) : Word := (x &&& y) ^^^ (~~~x &&& z)

/-- Maj (40_compress.md R85). -/
def maj (x y z : Word) : Word := (x &&& y) ^^^ (x &&& z) ^^^ (y &&& z)

/-- A word from four bytes, most significant first (00_scope.md R12). -/
def be32 (b0 b1 b2 b3 : Byte) : Word :=
  (b0.setWidth 32 <<< 24) ||| (b1.setWidth 32 <<< 16) ||| (b2.setWidth 32 <<< 8) ||| b3.setWidth 32

/-- Byte `k` of a word, the most significant being byte 0: `x[31-8k : 24-8k]`, for k ≤ 3 (42_finalize.md R136). -/
def wordByte (x : Word) (k : Nat) : Byte := x.extractLsb' (24 - 8 * k) 8

/-- The eight bytes of a 64-bit value, most significant first: byte `j` is `l[63-8j : 56-8j]`
(00_scope.md R12, 42_finalize.md R134). -/
def bytesBE64 (l : BitCount) : Vector Byte 8 := Vector.ofFn fun j => l.extractLsb' (56 - 8 * j.val) 8

end Sys2Proof.Machine
end

