-- ==== Sys2Proof/Machine/Compress.lean ====
section
/-! DEFINITION. The compression function (40_compress.md R87 to R93): a pure function of eight words and one block. The
message schedule and the working variables are its hidden state (10_state.md R29); none of it survives a command. -/

namespace Sys2Proof.Machine

/-- The first 16 schedule words: the block as big-endian words (40_compress.md R87). -/
def blockWords (blk : Block) : Vector Word 16 :=
  Vector.ofFn fun (i : Fin 16) => be32 blk[4 * i.val] blk[4 * i.val + 1] blk[4 * i.val + 2] blk[4 * i.val + 3]

/-- W[i] from the words before it, for i from 16 on (40_compress.md R88). -/
def nextScheduleWord (w : List Word) (i : Nat) : Word :=
  smallSigma1 (w.getD (i - 2) 0) + w.getD (i - 7) 0 + smallSigma0 (w.getD (i - 15) 0) + w.getD (i - 16) 0

/-- The first `16 + n` schedule words (40_compress.md R88). -/
def scheduleTo (blk : Block) : Nat → List Word
  | 0 => (blockWords blk).toList
  | n + 1 => scheduleTo blk n ++ [nextScheduleWord (scheduleTo blk n) (16 + n)]

/-- The message schedule W[0..63] of a block (40_compress.md R87, R88). -/
def schedule (blk : Block) : List Word := scheduleTo blk 48

/-- The working variables (40_compress.md R90). -/
structure WorkVars where
  a : Word
  b : Word
  c : Word
  d : Word
  e : Word
  f : Word
  g : Word
  h : Word
deriving DecidableEq, Repr

/-- The working variables at the start of a call: copies of the input words, in order (40_compress.md R90). -/
def WorkVars.ofHash (x : HashWords) : WorkVars := ⟨x[0], x[1], x[2], x[3], x[4], x[5], x[6], x[7]⟩

/-- T1 of a round whose constant is `kt` and whose schedule word is `wt` (40_compress.md R91). -/
def WorkVars.t1 (v : WorkVars) (kt wt : Word) : Word := v.h + bigSigma1 v.e + ch v.e v.f v.g + kt + wt

/-- T2 of a round (40_compress.md R91). -/
def WorkVars.t2 (v : WorkVars) : Word := bigSigma0 v.a + maj v.a v.b v.c

/-- One round: all eight variables are replaced at once, from the values before it (40_compress.md R91). -/
def roundStep (kt wt : Word) (v : WorkVars) : WorkVars :=
  ⟨v.t1 kt wt + v.t2, v.a, v.b, v.c, v.d + v.t1 kt wt, v.e, v.f, v.g⟩

/-- The working variables after rounds 0 to t - 1 with the schedule `w` (40_compress.md R91). -/
def roundsTo (w : List Word) (v : WorkVars) : Nat → WorkVars
  | 0 => v
  | t + 1 => roundStep (roundConstant t) (w.getD t 0) (roundsTo w v t)

/-- The additive feed-forward: input word j plus working variable j (40_compress.md R92). -/
def feedForward (x : HashWords) (v : WorkVars) : HashWords :=
  #v[x[0] + v.a, x[1] + v.b, x[2] + v.c, x[3] + v.d, x[4] + v.e, x[5] + v.f, x[6] + v.g, x[7] + v.h]

/-- Compress (40_compress.md R89): schedule, 64 rounds, feed-forward. -/
def compress (x : HashWords) (blk : Block) : HashWords :=
  feedForward x (roundsTo (schedule blk) (WorkVars.ofHash x) 64)

end Sys2Proof.Machine
end

