-- ==== Sys2Proof/Machine/State.lean ====
section
/-! DEFINITION. The state of the engine (10_state.md R20 to R34), the responses it has emitted, the actions the host has
still to make, and the reasons a step can stop. An element that holds no value is `none`, as R34 asks. -/

namespace Sys2Proof.Machine

/-- PHASE, the 2-bit lifecycle register (10_state.md R25). Its codes are `Phase.code`. -/
inductive Phase where
  /-- 0: no message; nothing has been created since reset. -/
  | idle
  /-- 1: a message is in progress; the HashState is valid. -/
  | active
  /-- 2: the message was finalized. -/
  | done
  /-- 3: a usage fault was raised; only reset leaves it. -/
  | faulted
deriving DecidableEq, Repr

/-- FAULT_CODE, the 4-bit register of the first usage fault since reset (10_state.md R26). Its codes are
`FaultCode.code`; the reserved codes 5 to 15 are never produced and have no constructor (60_exceptions.md R150). -/
inductive FaultCode where
  /-- 0: no fault since reset. -/
  | none
  /-- 1: the command word is not one of the 258 legal words. -/
  | illegalCommand
  /-- 2: UPDATE or FINALIZE while PHASE = IDLE. -/
  | notInitialized
  /-- 3: UPDATE or FINALIZE while PHASE = DONE. -/
  | afterFinalize
  /-- 4: UPDATE while TOTAL_BITS = 2^64 - 8. -/
  | lengthOverflow
deriving DecidableEq, Repr

/-- The engine's answer to one command (30_encoding.md R64). `digest` is present only for a FINALIZE that was
performed. -/
structure Response where
  ok     : Bool
  status : BitVec 8
  digest : Option Digest
deriving DecidableEq, Repr

/-- One thing the host receives: a command's response, or the value of a STATUS sample (20_memory.md R46). -/
inductive Output where
  | response (r : Response)
  | statusSample (v : BitVec 8)
deriving DecidableEq, Repr

/-- The elements of state that can hold no value (10_state.md R34). -/
inductive Element where
  | h
  | buf
  | bufLen
  | totalBits
deriving DecidableEq, Repr

/-- The engine stops with a fault of the model's own: never, so there is no constructor. A usage fault of the spec is no
stop: it is the state that 60_exceptions.md R153 enters, and a step that raises one answers a next state. -/
inductive Fault where
deriving DecidableEq, Repr

/-- The reasons the model has no meaning for a step. -/
inductive Refusal where
  /-- Raised by an arm of `exec` for a command without a meaning yet; no arm raises it. Safe. -/
  | notModelled (mnemonic : String)
  /-- Raised by UPDATE and FINALIZE when they would read an element that holds no value, in a state with PHASE = ACTIVE
  that no run from reset reaches: the spec refuses that read (10_state.md R34, 93_implementation_defined.md U3, U5). Safe:
  the step has no next state. -/
  | valuelessRead (e : Element)
deriving DecidableEq, Repr

/-- The state. `host` and `out` are the two ends of the command interface and not registers of the engine. -/
structure State where
  /-- H[0..7], eight 32-bit words (10_state.md R20); none while it holds no value. -/
  h         : Option HashWords
  /-- BUF[0..63], 64 bytes (10_state.md R21); a byte is none while it holds no value. -/
  buf       : Vector (Option Byte) 64
  /-- BUF_LEN, 6 bits (10_state.md R22); none while it holds no value. -/
  bufLen    : Option (BitVec 6)
  /-- TOTAL_BITS, 64 bits (10_state.md R24); none while it holds no value. -/
  totalBits : Option BitCount
  /-- PHASE (10_state.md R25). -/
  phase     : Phase
  /-- FAULT_CODE (10_state.md R26). -/
  faultCode : FaultCode
  /-- What the host will do, next action first (20_memory.md R48, 70_reset_and_hazards.md R176). The position in the
  command stream belongs to the host, not to the engine (10_state.md R30). -/
  host      : List HostAction
  /-- What the host has received, oldest first (30_encoding.md R64). The engine never reads it. -/
  out       : List Output
deriving DecidableEq, Repr

/-- A BUF of which no byte holds a value. -/
def valuelessBuf : Vector (Option Byte) 64 := Vector.replicate 64 none

/-- The machine right after reset (70_reset_and_hazards.md R170, R172), with nothing presented by the host yet and
nothing received. -/
def State.reset : State where
  h         := none
  buf       := valuelessBuf
  bufLen    := none
  totalBits := none
  phase     := .idle
  faultCode := .none
  host      := []
  out       := []

/-- The outcome of a command or a step. -/
abbrev Result := Host.Outcome State Fault Refusal

end Sys2Proof.Machine
end

