-- ==== Sys2Proof/Machine/Flags.lean ====
section
/-! DEFINITION. The codes of PHASE and FAULT_CODE, and STATUS computed from them. The engine has no arithmetic flags
(10_state.md R31): STATUS is its only status. -/

namespace Sys2Proof.Machine

/-- The 2-bit value of PHASE (10_state.md R25). -/
def Phase.code : Phase → BitVec 2
  | .idle => 0
  | .active => 1
  | .done => 2
  | .faulted => 3

/-- The 4-bit value of FAULT_CODE (60_exceptions.md R150). -/
def FaultCode.code : FaultCode → BitVec 4
  | .none => 0
  | .illegalCommand => 1
  | .notInitialized => 2
  | .afterFinalize => 3
  | .lengthOverflow => 4

/-- STATUS, the 8-bit read-only view: FAULT_CODE in bits 7 to 4, zeros in bits 3 to 2, PHASE in bits 1 to 0
(10_state.md R27). -/
def State.status (s : State) : BitVec 8 := s.faultCode.code ++ 0#2 ++ s.phase.code

end Sys2Proof.Machine
end

