-- ==== Sys2Proof/Machine/Ops.lean ====
section
/-! DEFINITION. The shared operations: answering a command, raising a usage fault (60_exceptions.md R153), rejecting a
command in the faulted state (R152), the host's reset, which is the only way out of it (R155), sampling STATUS, and the
phase check of UPDATE and FINALIZE (R151). -/

namespace Sys2Proof.Machine

/-- Hand `o` to the host, after everything handed to it before. -/
def State.emit (o : Output) (s : State) : State := { s with out := s.out ++ [o] }

/-- `respond(ok, digest?)`: the command's response, its STATUS taken from the state after the command
(30_encoding.md R64). -/
def State.respond (ok : Bool) (digest : Option Digest) (s : State) : State :=
  s.emit (.response { ok := ok, status := s.status, digest := digest })

/-- `raise UsageFault(code)`: PHASE and FAULT_CODE are written, the response has ok = 0 and no digest, and nothing else
changes (60_exceptions.md R153, R154). -/
def State.raiseUsageFault (code : FaultCode) (s : State) : State :=
  State.respond false none { s with phase := .faulted, faultCode := code }

/-- The answer to a command given while PHASE = FAULTED: ok = 0 and no digest; no element of the engine changes
(60_exceptions.md R152). -/
def State.reject (s : State) : State := s.respond false none

/-- RESET, asserted by the host: the reset state, with what the host has received and is still to do left alone
(70_reset_and_hazards.md R170). No response answers it. -/
def State.hostReset (s : State) : State := { State.reset with host := s.host, out := s.out }

/-- The host samples STATUS: it receives the value, and nothing else happens (20_memory.md R46). -/
def State.sample (s : State) : State := s.emit (.statusSample s.status)

/-- INIT's phase check: a faulted engine rejects it, and in every other phase it is performed (60_exceptions.md R151,
R152). -/
def unlessFaulted (s : State) (perform : Result) : Result :=
  match s.phase with
  | .faulted => .next s.reject
  | .idle => perform
  | .active => perform
  | .done => perform

/-- The phase checks of UPDATE and FINALIZE, in order (60_exceptions.md R151). -/
def whenActive (s : State) (perform : Result) : Result :=
  match s.phase with
  | .faulted => .next s.reject
  | .idle => .next (s.raiseUsageFault .notInitialized)
  | .done => .next (s.raiseUsageFault .afterFinalize)
  | .active => perform

end Sys2Proof.Machine
end

