-- ==== Sys2Proof/Machine/Operands.lean ====
section
/-! DEFINITION. Reading the elements of state that can hold no value, and the byte accesses to BUF (00_scope.md R13,
10_state.md R21, R34). -/

namespace Sys2Proof.Machine

/-- Use the value of element `e`. Reading an element that holds no value is refused by name (10_state.md R34). -/
def need {α : Type} (e : Element) (v : Option α) (use : α → Result) : Result :=
  match v with
  | some x => use x
  | none => .refused (.valuelessRead e)

/-- All values of a list, when every entry holds one. -/
def allValues {α : Type} : List (Option α) → Option (List α)
  | [] => some []
  | none :: _ => none
  | some x :: rest => (allValues rest).map (x :: ·)

/-- `BUF[i] <- b` for the 6-bit index `i` (00_scope.md R13, 41_init_update.md R114). -/
def writeByte (buf : Vector (Option Byte) 64) (i : BitVec 6) (b : Byte) : Vector (Option Byte) 64 :=
  buf.set i.toNat (some b) i.isLt

/-- `BUF[0..n-1]`, when each of these bytes holds a value (42_finalize.md R131). No other byte is read. -/
def readPrefix (buf : Vector (Option Byte) 64) (n : Nat) : Option (List Byte) :=
  allValues (buf.toList.take n)

/-- `BUF[0..63]` as a block, when every byte holds a value (41_init_update.md R115). -/
def readBlock (buf : Vector (Option Byte) 64) : Option Block :=
  match allValues buf.toList with
  | some bytes => if len : bytes.length = 64 then some ⟨bytes.toArray, len⟩ else none
  | none => none

end Sys2Proof.Machine
end

