-- ==== Sys2Proof/Machine/Padding.lean ====
section
/-! DEFINITION. The padded blocks of FINALIZE (42_finalize.md R131 to R134) and the serialisation of the digest (R136). -/

namespace Sys2Proof.Machine

/-- Byte `i` of the length field's block from offset 56 on: byte `i - 56` of the bit count `l`, most significant first
(42_finalize.md R134). -/
def lengthFieldByte (l : BitCount) (i : Nat) : Byte := (bytesBE64 l).toList.getD (i - 56) 0

/-- Byte `i` of the first padded block: the remaining message bytes, the 0x80 marker, and zeros (42_finalize.md R131,
R133). -/
def markedByte (r : List Byte) (i : Nat) : Byte :=
  if i < r.length then r.getD i 0 else if i = r.length then 0x80 else 0

/-- The one padded block of a remainder of at most 55 bytes, its last eight bytes the length field (42_finalize.md
R132). -/
def oneBlock (r : List Byte) (l : BitCount) : Block :=
  Vector.ofFn fun i => if i.val < 56 then markedByte r i.val else lengthFieldByte l i.val

/-- The first of two padded blocks: remainder, marker, zeros to the end (42_finalize.md R133). -/
def markerBlock (r : List Byte) : Block := Vector.ofFn fun i => markedByte r i.val

/-- The second of two padded blocks: zeros and the length field (42_finalize.md R133). -/
def lengthBlock (l : BitCount) : Block := Vector.ofFn fun i => if i.val < 56 then 0 else lengthFieldByte l i.val

/-- FinalBlocks(R, n, L), where `r` is the remainder R and n its length, at most 63 (42_finalize.md R131 to R134). The
blocks are in the order they are compressed. -/
def finalBlocks (r : List Byte) (l : BitCount) : List Block :=
  if r.length ≤ 55 then [oneBlock r l] else [markerBlock r, lengthBlock l]

/-- Serialize(H): four bytes of each word, most significant first, in word order (42_finalize.md R136). -/
def serialize (x : HashWords) : Digest :=
  Vector.ofFn fun (i : Fin 32) => wordByte x[i.val / 4] (i.val % 4)

end Sys2Proof.Machine
end

