-- ==== Sys2Proof/Machine/Finalize.lean ====
section
/-! DEFINITION. The meaning of FINALIZE (42_finalize.md R130, R137). -/

namespace Sys2Proof.Machine

/-- FINALIZE's writes: H becomes `x`, PHASE becomes DONE, and BUF, BUF_LEN and TOTAL_BITS hold no value (42_finalize.md
R130, R137). -/
def State.endMessage (x : HashWords) (s : State) : State :=
  { s with h := some x, buf := valuelessBuf, bufLen := none, totalBits := none, phase := .done }

/-- FINALIZE (42_finalize.md R130): the padded blocks are compressed in order, and the response carries the digest. The
padded blocks are values; BUF is not written with them (10_state.md R21). -/
def execFinalize (s : State) : Result :=
  whenActive s <|
    need .bufLen s.bufLen fun n =>
    need .totalBits s.totalBits fun l =>
    need .buf (readPrefix s.buf n.toNat) fun r =>
    need .h s.h fun x =>
      let last := (finalBlocks r l).foldl compress x
      .next ((s.endMessage last).respond true (some (serialize last)))

end Sys2Proof.Machine
end

