-- ==== Sys2Proof/Machine/Init.lean ====
section
/-! DEFINITION. The meaning of INIT (41_init_update.md R110, R111). -/

namespace Sys2Proof.Machine

/-- INIT's writes: H becomes IV, the counters 0 and PHASE ACTIVE. BUF is not written (41_init_update.md R111). -/
def State.startMessage (s : State) : State :=
  { s with h := some iv, bufLen := some 0, totalBits := some 0, phase := .active }

/-- INIT (41_init_update.md R111). -/
def execInit (s : State) : Result := unlessFaulted s (.next (s.startMessage.respond true none))

end Sys2Proof.Machine
end

