-- ==== Sys2Proof/Machine/Update.lean ====
section
/-! DEFINITION. The meaning of UPDATE (41_init_update.md R112 to R115). -/

namespace Sys2Proof.Machine

/-- The value of TOTAL_BITS to which 8 cannot be added: 2^64 - 8 (41_init_update.md R113). -/
def lastTotalBits : BitCount := 0xFFFFFFFFFFFFFFF8

/-- The append step: the byte goes to BUF[BUF_LEN] and TOTAL_BITS goes up by 8 (41_init_update.md R114). -/
def State.appendByte (b : Byte) (n : BitVec 6) (l : BitCount) (s : State) : State :=
  { s with buf := writeByte s.buf n b, totalBits := some (l + 8) }

/-- The step after the append, `n` being BUF_LEN before it: the 64th byte drains the buffer into H and BUF_LEN becomes 0;
any other byte adds 1 to BUF_LEN (41_init_update.md R112, R115). -/
def drainIfFull (n : BitVec 6) (s : State) : Result :=
  if n = 63 then
    need .h s.h fun x =>
    need .buf (readBlock s.buf) fun blk =>
      .next (State.respond true none { s with h := some (compress x blk), bufLen := some 0 })
  else
    .next (State.respond true none { s with bufLen := some (n + 1) })

/-- UPDATE (41_init_update.md R112). -/
def execUpdate (b : Byte) (s : State) : Result :=
  whenActive s <|
    need .totalBits s.totalBits fun l =>
      if l = lastTotalBits then .next (s.raiseUsageFault .lengthOverflow)
      else need .bufLen s.bufLen fun n => drainIfFull n (s.appendByte b n l)

end Sys2Proof.Machine
end

