-- ==== Sys2Proof/Machine/Action.lean ====
section
/-! DEFINITION. What one action of the host does: the checking order of a command (60_exceptions.md R151), reset, and a
STATUS sample. -/

namespace Sys2Proof.Machine

/-- One command word (60_exceptions.md R151): a faulted engine rejects it before decoding, an illegal word raises
ILLEGAL_COMMAND, and a legal one is performed with its own checks. -/
def performCommand (w : CmdWord) (s : State) : Result :=
  if s.phase = .faulted then .next s.reject
  else
    match decode w with
    | .illegal => .next (s.raiseUsageFault .illegalCommand)
    | .instr i => exec i s

/-- One action of the host. Each is atomic (20_memory.md R46, 70_reset_and_hazards.md R171). -/
def performAction (a : HostAction) (s : State) : Result :=
  match a with
  | .command w => performCommand w s
  | .reset => .next s.hostReset
  | .sampleStatus => .next s.sample

/-- Take the host's next action. An engine to which the host gives nothing is quiescent: it waits, unchanged
(70_reset_and_hazards.md R174, R176). -/
def takeAction (s : State) : Result :=
  match s.host with
  | [] => .next s
  | a :: rest => performAction a { s with host := rest }

/-- The host's next action becomes the presentation of the word `w`. -/
def State.present (w : CmdWord) (s : State) : State := { s with host := .command w :: s.host }

end Sys2Proof.Machine
end

