-- ==== Sys2Proof/Machine/Assembler.lean ====
section
/-! DEFINITION. The spec's assembler (30_encoding.md R66, R67): from the text of a line to the line, and from a line to
the host actions it stands for. -/

namespace Sys2Proof.Machine

/-- The host action that presents command `i`. -/
def present (i : Instr) : HostAction := .command (encode i)

/-- What a well-formed line assembles to, and none for a line whose numbers do not fit. `UPDATE.BYTES` is its UPDATEs in
order, and nothing for no bytes (30_encoding.md R66, R67). -/
def assembleLine (line : AsmLine) : Option (List HostAction) :=
  if line.wf then
    match line with
    | .init => some [present .init]
    | .update v => some [present (.update (BitVec.ofNat 8 v))]
    | .finalize => some [present .finalize]
    | .reset => some [.reset]
    | .word v => some [.command (BitVec.ofNat 16 v)]
    | .updateBytes vs => some (vs.map fun v => present (.update (BitVec.ofNat 8 v)))
  else none

/-- The lines of a program, in order: the host's actions. -/
def assemble : List AsmLine → Option (List HostAction)
  | [] => some []
  | line :: rest =>
    match assembleLine line, assemble rest with
    | some acts, some more => some (acts ++ more)
    | _, _ => none

/-- A word of a line: a mnemonic or directive, a number, a quoted string, or a comma. -/
inductive AsmToken where
  | name (cs : List Char)
  | number (v : Nat)
  | text (cs : List Char)
  | comma
deriving DecidableEq, Repr

/-- Where the reader of a line stands. -/
inductive AsmMode where
  /-- Between words. -/
  | gap
  /-- Inside a name or a number, its characters so far, last first. -/
  | run (cs : List Char)
  /-- Inside a quoted string, its characters so far, last first. -/
  | inText (cs : List Char)
  /-- After the opening quote of a character. -/
  | inChar
  /-- After the character of a quoted character. -/
  | endChar (c : Char)
  /-- In a comment. -/
  | comment
deriving DecidableEq, Repr

/-- `'`, which quotes a character. -/
def charQuote : Char := Char.ofNat 39

/-- `"`, which quotes a string. -/
def textQuote : Char := Char.ofNat 34

/-- The value of a digit in a base up to 16, and none for another character. -/
def digitValue (base : Nat) (c : Char) : Option Nat :=
  let v :=
    if 48 ≤ c.toNat ∧ c.toNat ≤ 57 then c.toNat - 48
    else if 97 ≤ c.toNat ∧ c.toNat ≤ 102 then c.toNat - 87
    else if 65 ≤ c.toNat ∧ c.toNat ≤ 70 then c.toNat - 55
    else base
  if v < base then some v else none

/-- The number that the digits stand for, added to `acc` times the weight they leave it. -/
def readDigits (base : Nat) : Nat → List Char → Option Nat
  | acc, [] => some acc
  | acc, c :: cs =>
    match digitValue base c with
    | some v => readDigits base (base * acc + v) cs
    | none => none

/-- A run of characters as a hex number (`0x61`), a decimal number (`97`), or a name (30_encoding.md R66). -/
def readRun (cs : List Char) : Option AsmToken :=
  match cs with
  | '0' :: 'x' :: d :: ds => (readDigits 16 0 (d :: ds)).map .number
  | c :: rest =>
    match digitValue 10 c with
    | some _ => (readDigits 10 0 (c :: rest)).map .number
    | none => some (.name cs)
  | [] => none

/-- Whether a character is part of a name or a number: a letter, a digit, or `.`. -/
def isRunChar (c : Char) : Bool := c.isAlphanum || c == '.'

/-- What a character that begins no name or number starts, and the word it is by itself. -/
def startMode (c : Char) : Option (List AsmToken × AsmMode) :=
  if isRunChar c then some ([], .run [c])
  else if c == ' ' || c == Char.ofNat 9 then some ([], .gap)
  else if c == ',' then some ([.comma], .gap)
  else if c == ';' then some ([], .comment)
  else if c == charQuote then some ([], .inChar)
  else if c == textQuote then some ([], .inText [])
  else none

/-- The words of a line. Comments start with `;` (30_encoding.md R66); that a `;` inside quotes starts none is the model's
choice. DESIGN CHOICE (log entry 12): a quoted string has no escape, so a second `"` always ends it and no string holds a
double quote (30_encoding.md R67 is silent); a quoted character is any one ASCII character, `'` among them. -/
def readTokens : AsmMode → List Char → Option (List AsmToken)
  | .gap, [] => some []
  | .comment, [] => some []
  | .run cs, [] => (readRun cs.reverse).map ([·])
  | .inText _, [] => none
  | .inChar, [] => none
  | .endChar _, [] => none
  | .comment, _ :: rest => readTokens .comment rest
  | .inText cs, c :: rest =>
    if c == textQuote then (readTokens .gap rest).map (.text cs.reverse :: ·) else readTokens (.inText (c :: cs)) rest
  | .inChar, c :: rest => readTokens (.endChar c) rest
  | .endChar c, q :: rest =>
    if q == charQuote ∧ c.toNat < 128 then (readTokens .gap rest).map (.number c.toNat :: ·) else none
  | .gap, c :: rest =>
    match startMode c with
    | some (words, mode) => (readTokens mode rest).map (words ++ ·)
    | none => none
  | .run cs, c :: rest =>
    if isRunChar c then readTokens (.run (c :: cs)) rest
    else
      match readRun cs.reverse, startMode c with
      | some word, some (words, mode) => (readTokens mode rest).map (word :: words ++ ·)
      | _, _ => none

/-- A list of numbers separated by commas. -/
def readNumbers : List AsmToken → Option (List Nat)
  | [] => some []
  | [.number v] => some [v]
  | .number v :: .comma :: .number v' :: rest => (readNumbers (.number v' :: rest)).map (v :: ·)
  | _ => none

/-- The line whose mnemonic is `m` and whose other words are `args` (30_encoding.md R66, R67). -/
def readOperation (m : List Char) (args : List AsmToken) : Option AsmLine :=
  if m = ['I', 'N', 'I', 'T'] then if args = [] then some .init else none
  else if m = ['F', 'I', 'N', 'A', 'L', 'I', 'Z', 'E'] then if args = [] then some .finalize else none
  else if m = ['R', 'E', 'S', 'E', 'T'] then if args = [] then some .reset else none
  else if m = ['U', 'P', 'D', 'A', 'T', 'E'] then
    match args with
    | [.number v] => some (.update v)
    | _ => none
  else if m = ['.', 'W', 'O', 'R', 'D'] then
    match args with
    | [.number v] => some (.word v)
    | _ => none
  else if m = ['U', 'P', 'D', 'A', 'T', 'E', '.', 'B', 'Y', 'T', 'E', 'S'] then
    match args with
    | [.text cs] => if cs.all fun c => c.toNat < 128 then some (.updateBytes (cs.map Char.toNat)) else none
    | _ => (readNumbers args).map .updateBytes
  else none

/-- The line a text stands for: `some none` for a blank or a comment alone, `none` for a text that is no line
(30_encoding.md R66, R67). -/
def readLine (cs : List Char) : Option (Option AsmLine) :=
  match readTokens .gap cs with
  | some [] => some none
  | some (.name m :: args) => (readOperation m args).map some
  | _ => none

end Sys2Proof.Machine
end

