-- ==== Sys2Proof/Machine/Platform.lean ====
section
/-! DEFINITION. A platform of `n` engines (60_exceptions.md R160): each has its own state and its own command stream, and
they share only the constants. -/

namespace Sys2Proof.Machine

/-- `n` engines, each a whole `State` (60_exceptions.md R160). The number is a parameter: `Config.params.nEngines` of the
platform at hand (00_scope.md R7). -/
structure Platform (n : Nat) where
  engines : Vector State n
deriving DecidableEq, Repr

/-- The platform at hand, whose number of engines no proof can see (00_scope.md R7). -/
abbrev PlatformAtHand := Platform Config.params.nEngines

/-- Every engine right after reset. -/
def resetPlatform (n : Nat) : Platform n := ⟨Vector.replicate n State.reset⟩

/-- Engine `j` takes one step, and no other engine does (60_exceptions.md R160). -/
def stepEngine {n : Nat} (j : Fin n) (p : Platform n) : Host.Outcome (Platform n) Fault Refusal :=
  match step p.engines[j] with
  | .next t => .next ⟨p.engines.set j t⟩
  | .fault f => .fault f
  | .refused r => .refused r

end Sys2Proof.Machine
end

