-- ==== Sys2Proof/Machine/Timing.lean ====
section
/-! DEFINITION. Which of the open time parameters a command takes (70_reset_and_hazards.md R178). No step uses it: the
model holds no time (92_eei_decisions.md D15). -/

namespace Sys2Proof.Machine

/-- The parameter that is the time of command `i` performed in state `s`; none where the command is not performed, for
which the spec names no parameter (00_scope.md R7, 70_reset_and_hazards.md R178). -/
def commandTime (p : Config.Params) (i : Instr) (s : State) : Option Nat :=
  match i with
  | .init => if s.phase = .faulted then none else some p.tInit
  | .update _ =>
    if s.phase = .active ∧ s.totalBits ≠ some lastTotalBits then
      some (if s.bufLen = some 63 then p.tUpdateCompress else p.tUpdate)
    else none
  | .finalize => if s.phase = .active then some p.tFinalize else none

/-- The time of command `i` on the platform at hand. -/
def timeAtHand (i : Instr) (s : State) : Option Nat := commandTime Config.params i s

end Sys2Proof.Machine
end

