-- ==== Sys2Proof/Safety.lean ====
section
/-! DEFINITION. The terms of the claims: the invariant of the engine (10_state.md R23 to R26, R34), the digest of a whole
message said without the engine (42_finalize.md R135, R136), the state of an engine that has taken in a message
(20_memory.md R43, R49), and a run of several steps. -/

namespace Sys2Proof.Machine

/-- The HashState of a message in progress: H holds a value, BUF_LEN and TOTAL_BITS agree as R23 and R24 say, and the
bytes below BUF_LEN hold values (10_state.md R21 to R24). -/
structure Live (s : State) : Prop where
  hashed  : s.h ≠ none
  counted : ∃ n l, s.bufLen = some n ∧ s.totalBits = some l ∧ l.toNat % 8 = 0 ∧ n.toNat = l.toNat / 8 % 64 ∧
    ∀ i : Fin 64, i.val < n.toNat → s.buf[i] ≠ none

/-- No part of the HashState holds a value (10_state.md R34, 70_reset_and_hazards.md R172). -/
structure Valueless (s : State) : Prop where
  h         : s.h = none
  buf       : s.buf = valuelessBuf
  bufLen    : s.bufLen = none
  totalBits : s.totalBits = none

/-- The HashState after FINALIZE: only H holds a value (42_finalize.md R137). -/
structure Spent (s : State) : Prop where
  h         : s.h ≠ none
  buf       : s.buf = valuelessBuf
  bufLen    : s.bufLen = none
  totalBits : s.totalBits = none

/-- The invariant of the engine: a fault code stands exactly in the faulted phase (10_state.md R25, R26), and in each
other phase exactly the elements that the spec gives a value there hold one (R34). -/
structure EngineInv (s : State) : Prop where
  coded  : s.phase = .faulted ↔ s.faultCode ≠ .none
  idle   : s.phase = .idle → Valueless s
  active : s.phase = .active → Live s
  done   : s.phase = .done → Spent s

/-- The state that raising the usage fault `code` in state `s` leads to, said field by field: PHASE, FAULT_CODE and one
response with ok = 0, STATUS = 0x03 | (code << 4) and no digest (60_exceptions.md R153). -/
def faultedAs (code : FaultCode) (s : State) : State :=
  { s with
    phase := .faulted
    faultCode := code
    out := s.out ++ [.response { ok := false, status := 0x03 ||| (code.code.setWidth 8 <<< 4), digest := none }] }

/-- `k` steps, stopping at the first fault or refusal. -/
def run (k : Nat) (s : State) : Result := Host.Core.run Sys2Proof.core k s

/-- Block `i` of a byte sequence: its byte `j` is byte `64 i + j` (20_memory.md R43). -/
def blockAt (bytes : List Byte) (i : Nat) : Block := Vector.ofFn fun j => bytes.getD (64 * i + j.val) 0

/-- The whole blocks of a byte sequence, in order; a last part of fewer than 64 bytes is in none of them. -/
def blocksOf (bytes : List Byte) : List Block := (List.range (bytes.length / 64)).map (blockAt bytes)

/-- What a message of `n` bytes is padded with: the marker, the fewest zeros that make the whole a multiple of 64 bytes,
and the 64-bit big-endian bit count (00_scope.md R15, 42_finalize.md R131 to R135). -/
def padding (n : Nat) : List Byte :=
  0x80 :: List.replicate ((119 - n % 64) % 64) 0 ++ (bytesBE64 (BitVec.ofNat 64 (8 * n))).toList

/-- The padded message (00_scope.md R15). -/
def paddedMessage (m : List Byte) : List Byte := m ++ padding m.length

/-- The digest of a message, said without the engine: the blocks of the padded message compressed in order from IV, and
the last state serialised (20_memory.md R49, 42_finalize.md R136). -/
def sha256 (m : List Byte) : Digest := serialize ((blocksOf (paddedMessage m)).foldl compress iv)

/-- The engine has taken in exactly the bytes `m` since INIT: its whole blocks are compressed into H, the rest stands in
BUF, and the counters count it (20_memory.md R43, R49; 41_init_update.md R113 to R115). -/
structure Absorbed (m : List Byte) (s : State) : Prop where
  phase     : s.phase = .active
  h         : s.h = some ((blocksOf m).foldl compress iv)
  bufLen    : s.bufLen = some (BitVec.ofNat 6 (m.length % 64))
  totalBits : s.totalBits = some (BitVec.ofNat 64 (8 * m.length))
  buf       : ∀ j : Fin 64, j.val < m.length % 64 → s.buf[j] = some (m.getD (64 * (m.length / 64) + j.val) 0)

end Sys2Proof.Machine
end

