-- ==== Sys2Proof/Certificates/Slice0/Obligations.lean ====
section
/-! DEFINITION. The statements for the provers. Each docstring names the rule of spec/ it formalises. -/

open Sys2Proof Sys2Proof.Machine

/-! ## Reset, STATUS and what the host sees -/

/-- The values after reset (70_reset_and_hazards.md R172). -/
def Obligations.ResetStateValues : Prop :=
  State.reset.phase = .idle ∧ State.reset.faultCode = .none ∧ State.reset.status = 0x00 ∧
  State.reset.h = none ∧ (∀ i : Fin 64, State.reset.buf[i] = none) ∧
  State.reset.bufLen = none ∧ State.reset.totalBits = none

/-- RESET (70_reset_and_hazards.md R170): the host may assert it in every state; it leaves PHASE, FAULT_CODE and the
HashState as the rule says and STATUS 0x00, an UPDATE or FINALIZE next raises NOT_INITIALIZED, and no other action leaves
the faulted phase. -/
def Obligations.HostResetFromEveryState : Prop :=
  (∀ (s : State) (rest : List HostAction), s.host = .reset :: rest →
    ∃ t, step s = .next t ∧
      t = { h := none, buf := Vector.replicate 64 none, bufLen := none, totalBits := none, phase := .idle,
            faultCode := .none, host := rest, out := s.out } ∧
      t.status = 0x00 ∧
      ∀ (i : Instr) (more : List HostAction), i ≠ .init → rest = .command (encode i) :: more →
        step t = .next (faultedAs .notInitialized { t with host := more })) ∧
  (∀ (s t : State) (a : HostAction) (rest : List HostAction),
    s.phase = .faulted → s.host = a :: rest → step s = .next t → t.phase ≠ .faulted → a = .reset)

/-- STATUS holds PHASE in bits 1 to 0, zeros in bits 3 to 2 and FAULT_CODE in bits 7 to 4, with the codes of
10_state.md R25 and 60_exceptions.md R150 (10_state.md R27). -/
def Obligations.StatusLayout : Prop :=
  ∀ s : State,
    s.status.extractLsb' 2 2 = 0 ∧
    (s.status.extractLsb' 0 2).toNat =
      (match s.phase with | .idle => 0 | .active => 1 | .done => 2 | .faulted => 3) ∧
    (s.status.extractLsb' 4 4).toNat =
      (match s.faultCode with
        | .none => 0 | .illegalCommand => 1 | .notInitialized => 2 | .afterFinalize => 3 | .lengthOverflow => 4)

/-- Sampling STATUS hands its value to the host and changes nothing else (20_memory.md R46). -/
def Obligations.StatusSampleHasNoSideEffect : Prop :=
  ∀ (s : State) (rest : List HostAction), s.host = .sampleStatus :: rest →
    step s = .next { s with host := rest, out := s.out ++ [.statusSample s.status] }

/-- An engine to which the host gives nothing stays as it is. That the wait is a step which changes nothing is the model's
choice (log entry 4); the spec calls the engine quiescent (70_reset_and_hazards.md R174). -/
def Obligations.QuiescentEngineIsUnchanged : Prop :=
  ∀ s : State, s.host = [] → step s = .next s

/-- Every command gets one response, with `ok` clear exactly when the engine is faulted after it, STATUS as it is after
the command, and a digest exactly when the command is FINALIZE and `ok` is set; the digest is then the serialised H
(30_encoding.md R64). -/
def Obligations.EveryCommandGetsOneResponse : Prop :=
  ∀ (s t : State) (w : CmdWord) (rest : List HostAction), s.host = .command w :: rest → step s = .next t →
    t.host = rest ∧
    ∃ r : Response, t.out = s.out ++ [.response r] ∧ r.status = t.status ∧
      (r.ok = true ↔ t.phase ≠ .faulted) ∧
      (r.digest ≠ none ↔ decode w = .instr .finalize ∧ r.ok = true) ∧
      (∀ d, r.digest = some d → ∃ x, t.h = some x ∧ d = serialize x)

/-- Actions are taken in the order given, none dropped, duplicated or reordered, and each command or sample is answered
once (20_memory.md R48, 70_reset_and_hazards.md R176). -/
def Obligations.ActionsAreTakenInOrder : Prop :=
  ∀ (n : Nat) (s t : State), run n s = .next t →
    t.host = s.host.drop n ∧
    ∃ new : List Output, t.out = s.out ++ new ∧
      new.length = ((s.host.take n).filter fun a => a ≠ HostAction.reset).length

/-! ## Encoding -/

/-- A word decodes to a command exactly when it is that command's word: no bit of an encoding is dropped, and no two words
mean one command (30_encoding.md R60 to R62, R65). -/
def Obligations.DecodeEncodeInverse : Prop :=
  ∀ (w : CmdWord) (i : Instr), decode w = .instr i ↔ w = encode i

/-- The illegal words are exactly those R63 lists, the legal ones 0x0100, 0x0200 to 0x02FF and 0x0300, 258 in all, and an
illegal word raises ILLEGAL_COMMAND unless the engine is faulted (30_encoding.md R63). -/
def Obligations.IllegalWordsAreThoseListed : Prop :=
  (∀ w : CmdWord,
    (decode w = .illegal ↔
      w.toNat / 256 = 0 ∨ 4 ≤ w.toNat / 256 ∨ (0x0101 ≤ w.toNat ∧ w.toNat ≤ 0x01FF) ∨
        (0x0301 ≤ w.toNat ∧ w.toNat ≤ 0x03FF)) ∧
    (decode w ≠ .illegal ↔ w = 0x0100 ∨ (0x0200 ≤ w.toNat ∧ w.toNat ≤ 0x02FF) ∨ w = 0x0300)) ∧
  (∃ words : List CmdWord, words.Nodup ∧ words.length = 258 ∧ ∀ w, w ∈ words ↔ decode w ≠ .illegal) ∧
  (∀ (s : State) (w : CmdWord) (rest : List HostAction), s.host = .command w :: rest → decode w = .illegal →
    s.phase ≠ .faulted → step s = .next (faultedAs .illegalCommand { s with host := rest }))

/-- Words written out from the encoding table, and what they mean (30_encoding.md R60, R61; 95_test_vectors.md 2.8). -/
def Obligations.TableWordsDecode : Prop :=
  decode 0b0000000100000000 = .instr .init ∧ decode 0b0000001100000000 = .instr .finalize ∧
  decode 0b0000001000000000 = .instr (.update 0x00) ∧ decode 0b0000001001100001 = .instr (.update 0x61) ∧
  decode 0b0000001011111111 = .instr (.update 0xFF) ∧
  decode 0x0000 = .illegal ∧ decode 0x0001 = .illegal ∧ decode 0x0101 = .illegal ∧ decode 0x01FF = .illegal ∧
  decode 0x0380 = .illegal ∧ decode 0x0400 = .illegal ∧ decode 0xFF00 = .illegal ∧ decode 0xFFFF = .illegal

/-- When the host's next action is a word that decodes to `i`, the step takes that action off and is exec of `i`. In IDLE,
ACTIVE and DONE this is 60_exceptions.md R151. In FAULTED the spec rejects the word before decoding it (R151 step 1, R152)
and gives the command no meaning: that `exec i` by itself rejects there, so that the equation holds in FAULTED too, is the
model's own (log entry 8, DEDUCED). -/
def Obligations.StepRunsTheDecodedCommand : Prop :=
  ∀ (s : State) (w : CmdWord) (rest : List HostAction) (i : Instr),
    s.host = .command w :: rest → decode w = .instr i → step s = exec i { s with host := rest }

/-- Each assembler line stands for the word or the host action that 30_encoding.md R66 gives it. R66 gives the ranges of
the numbers and does not say what a line with a number out of range is: that it stands for nothing, the last two clauses,
is the model's choice (log entry 12, DESIGN CHOICE). -/
def Obligations.AssembledLines : Prop :=
  assembleLine .init = some [.command 0x0100] ∧ assembleLine .finalize = some [.command 0x0300] ∧
  assembleLine .reset = some [.reset] ∧
  (∀ v, v < 256 → assembleLine (.update v) = some [.command (0x0200 ||| BitVec.ofNat 16 v)]) ∧
  (∀ v, v < 65536 → ∃ w : CmdWord, assembleLine (.word v) = some [.command w] ∧ w.toNat = v) ∧
  (∀ v, 256 ≤ v → assembleLine (.update v) = none) ∧ (∀ v, 65536 ≤ v → assembleLine (.word v) = none)

/-- Feeding a message in pieces is the same command sequence as feeding it whole, and that sequence is one UPDATE for each
byte in order (30_encoding.md R67; 41_init_update.md R116, R117). -/
def Obligations.PiecesAssembleAsTheWhole : Prop :=
  ∀ pieces : List (List Nat), (∀ p ∈ pieces, ∀ v ∈ p, v < 256) →
    assemble (pieces.map .updateBytes) = assemble [.updateBytes pieces.flatten] ∧
    assemble [.updateBytes pieces.flatten] = assemble (pieces.flatten.map .update) ∧
    assemble (pieces.flatten.map .update) =
      some (pieces.flatten.map fun v => .command (encode (.update (BitVec.ofNat 8 v))))

/-! ## The word functions and Compress -/

/-- Bit `i` of `rotr(x, n)` is bit `(i + n) mod 32` of `x` (00_scope.md R11). -/
def Obligations.RotateRightBits : Prop :=
  ∀ (x : Word) (n i : Nat), 1 ≤ n → n ≤ 31 → i < 32 → (rotr x n).getLsbD i = x.getLsbD ((i + n) % 32)

/-- The four sigma functions bit by bit, their corner cases and their examples (40_compress.md R80 to R83). -/
def Obligations.SigmaFunctions : Prop :=
  (∀ (x : Word) (i : Nat), i < 32 →
    (bigSigma0 x).getLsbD i =
      ((x.getLsbD ((i + 2) % 32) ^^ x.getLsbD ((i + 13) % 32)) ^^ x.getLsbD ((i + 22) % 32)) ∧
    (bigSigma1 x).getLsbD i =
      ((x.getLsbD ((i + 6) % 32) ^^ x.getLsbD ((i + 11) % 32)) ^^ x.getLsbD ((i + 25) % 32)) ∧
    (smallSigma0 x).getLsbD i =
      ((x.getLsbD ((i + 7) % 32) ^^ x.getLsbD ((i + 18) % 32)) ^^ (decide (i + 3 ≤ 31) && x.getLsbD (i + 3))) ∧
    (smallSigma1 x).getLsbD i =
      ((x.getLsbD ((i + 17) % 32) ^^ x.getLsbD ((i + 19) % 32)) ^^ (decide (i + 10 ≤ 31) && x.getLsbD (i + 10)))) ∧
  bigSigma0 0 = 0 ∧ bigSigma0 0xFFFFFFFF = 0xFFFFFFFF ∧ bigSigma0 0x6a09e667 = 0xce20b47e ∧
  bigSigma1 0 = 0 ∧ bigSigma1 0xFFFFFFFF = 0xFFFFFFFF ∧ bigSigma1 0x510e527f = 0x3587272b ∧
  smallSigma0 0 = 0 ∧ smallSigma0 0xFFFFFFFF = 0x1FFFFFFF ∧ smallSigma0 0x00000001 = 0x02004000 ∧
  smallSigma1 0 = 0 ∧ smallSigma1 0xFFFFFFFF = 0x003FFFFF ∧ smallSigma1 0x00000001 = 0x0000a000

/-- Ch chooses a bit of `y` where `x` is 1 and of `z` where it is 0; Maj is the majority bit; and their corner cases
(40_compress.md R84, R85). -/
def Obligations.ChooseAndMajority : Prop :=
  ∀ x y z : Word,
    (∀ i : Nat, i < 32 →
      (ch x y z).getLsbD i = (if x.getLsbD i then y.getLsbD i else z.getLsbD i) ∧
      ((maj x y z).getLsbD i = true ↔
        2 ≤ (x.getLsbD i).toNat + (y.getLsbD i).toNat + (z.getLsbD i).toNat)) ∧
    ch 0xFFFFFFFF y z = y ∧ ch 0 y z = z ∧ maj x x z = x ∧ maj 0 0xFFFFFFFF z = z ∧ maj 0 0 0 = 0

/-- The table K holds the first 32 bits of the fractional parts of the cube roots of the first 64 primes, and IV those of
the square roots of the first 8: the spec's independent route to both tables (40_compress.md R86, 41_init_update.md
R110). -/
def Obligations.ConstantsAreRootFractions : Prop :=
  (∀ t, t < 64 → ∃ p c : Nat, p.Prime ∧ Nat.count Nat.Prime p = t ∧
    c ^ 3 ≤ p * 2 ^ 96 ∧ p * 2 ^ 96 < (c + 1) ^ 3 ∧ roundConstant t = BitVec.ofNat 32 c) ∧
  (∀ j : Fin 8, ∃ p c : Nat, p.Prime ∧ Nat.count Nat.Prime p = j.val ∧
    c ^ 2 ≤ p * 2 ^ 64 ∧ p * 2 ^ 64 < (c + 1) ^ 2 ∧ iv[j] = BitVec.ofNat 32 c)

/-- The schedule has 64 words: 16 big-endian words of the block, and from 16 on the recurrence; it is zero for the zero
block (40_compress.md R87, R88). -/
def Obligations.ScheduleWords : Prop :=
  (∀ blk : Block,
    (schedule blk).length = 64 ∧
    (∀ i : Fin 16,
      ((schedule blk).getD i.val 0).extractLsb' 24 8 = blk[4 * i.val] ∧
      ((schedule blk).getD i.val 0).extractLsb' 16 8 = blk[4 * i.val + 1] ∧
      ((schedule blk).getD i.val 0).extractLsb' 8 8 = blk[4 * i.val + 2] ∧
      ((schedule blk).getD i.val 0).extractLsb' 0 8 = blk[4 * i.val + 3]) ∧
    (∀ i, 16 ≤ i → i < 64 →
      (schedule blk).getD i 0 =
        smallSigma1 ((schedule blk).getD (i - 2) 0) + (schedule blk).getD (i - 7) 0 +
          smallSigma0 ((schedule blk).getD (i - 15) 0) + (schedule blk).getD (i - 16) 0) ∧
    (blk[0] = 0x61 → blk[1] = 0x62 → blk[2] = 0x63 → blk[3] = 0x80 → (schedule blk).getD 0 0 = 0x61626380)) ∧
  (∀ i, i < 64 → (schedule (Vector.replicate 64 0)).getD i 0 = 0)

/-- Compress copies the input words into the working variables, runs rounds 0 to 63, each replacing all eight variables
from the values before it, and adds the input words to the result (40_compress.md R90, R91, R92). -/
def Obligations.CompressIsSixtyFourRounds : Prop :=
  ∀ (x : HashWords) (blk : Block), ∃ v : Nat → WorkVars,
    v 0 = ⟨x[0], x[1], x[2], x[3], x[4], x[5], x[6], x[7]⟩ ∧
    (∀ t, t < 64 →
      ∃ t1 t2 : Word,
        t1 = (v t).h + bigSigma1 (v t).e + ch (v t).e (v t).f (v t).g + roundConstant t + (schedule blk).getD t 0 ∧
        t2 = bigSigma0 (v t).a + maj (v t).a (v t).b (v t).c ∧
        v (t + 1) = ⟨t1 + t2, (v t).a, (v t).b, (v t).c, (v t).d + t1, (v t).e, (v t).f, (v t).g⟩) ∧
    compress x blk =
      #v[x[0] + (v 64).a, x[1] + (v 64).b, x[2] + (v 64).c, x[3] + (v 64).d,
         x[4] + (v 64).e, x[5] + (v 64).f, x[6] + (v 64).g, x[7] + (v 64).h]

/-- Two Compress calls whose results the spec gives: the padded "abc" block from IV, and the zero block from the zero
state (40_compress.md R89; 95_test_vectors.md 2.3). -/
def Obligations.CompressExamples : Prop :=
  compress iv (Vector.ofFn fun i : Fin 64 =>
      if i.val = 0 then 0x61 else if i.val = 1 then 0x62 else if i.val = 2 then 0x63
      else if i.val = 3 then 0x80 else if i.val = 63 then 0x18 else 0) =
    #v[0xba7816bf, 0x8f01cfea, 0x414140de, 0x5dae2223, 0xb00361a3, 0x96177a9c, 0xb410ff61, 0xf20015ad] ∧
  compress (Vector.replicate 8 0) (Vector.replicate 64 0) =
    #v[0x7ca51614, 0x425c3ba8, 0xce54dd2f, 0xc2020ae7, 0xb6e574d1, 0x98136d0f, 0xae7e26cc, 0xbf0be7a6]

/-! ## INIT and UPDATE -/

/-- INIT runs in every phase but FAULTED: H becomes IV, BUF_LEN and TOTAL_BITS 0, PHASE ACTIVE, and nothing else but the
response changes; a second INIT right after it changes no element; after reset STATUS is 0x01; a nonzero DATA field makes
the word illegal (41_init_update.md R110, R111). That INIT inside a message is performed is the spec's decision D13
(92_eei_decisions.md; log entry 13). -/
def Obligations.InitStartsAMessage : Prop :=
  (∀ s : State, s.phase ≠ .faulted → ∃ t,
    exec .init s = .next t ∧
    t = { s with
      h := some #v[0x6a09e667, 0xbb67ae85, 0x3c6ef372, 0xa54ff53a, 0x510e527f, 0x9b05688c, 0x1f83d9ab, 0x5be0cd19]
      bufLen := some 0
      totalBits := some 0
      phase := .active
      out := s.out ++ [.response { ok := true, status := s.faultCode.code ++ 0#2 ++ 1#2, digest := none }] } ∧
    ∃ u, exec .init t = .next u ∧ { u with out := t.out } = t) ∧
  (∃ t, exec .init State.reset = .next t ∧ t.status = 0x01) ∧
  (∀ b : Byte, b ≠ 0 → decode (0x01#8 ++ b) = .illegal)

/-- UPDATE adds one message byte. A byte that does not fill the buffer goes to BUF[BUF_LEN], BUF_LEN goes up by 1 and
TOTAL_BITS by 8. The 64th byte of a block is appended the same way, the block is compressed into H and BUF_LEN becomes 0.
Nothing else but the response changes. Before INIT UPDATE raises NOT_INITIALIZED, after FINALIZE AFTER_FINALIZE, and with
TOTAL_BITS = 2^64 - 8 LENGTH_OVERFLOW (41_init_update.md R112, R114, R115). -/
def Obligations.UpdateAddsOneByte : Prop :=
  (∀ (b : Byte) (s : State) (n : BitVec 6) (l : BitCount),
    s.phase = .active → s.bufLen = some n → s.totalBits = some l → n ≠ 63 → l ≠ 0xFFFFFFFFFFFFFFF8 →
    exec (.update b) s = .next { s with
      buf := s.buf.set n.toNat (some b) n.isLt
      bufLen := some (n + 1)
      totalBits := some (l + 8)
      out := s.out ++ [.response { ok := true, status := s.faultCode.code ++ 0#2 ++ 1#2, digest := none }] }) ∧
  (∀ (b : Byte) (s : State) (l : BitCount) (x : HashWords) (blk : Block),
    s.phase = .active → s.bufLen = some 63 → s.totalBits = some l → l ≠ 0xFFFFFFFFFFFFFFF8 → s.h = some x →
    (∀ i : Fin 64, i.val < 63 → s.buf[i] = some blk[i]) → blk[63] = b →
    exec (.update b) s = .next { s with
      h := some (compress x blk)
      buf := s.buf.set 63 (some b)
      bufLen := some 0
      totalBits := some (l + 8)
      out := s.out ++ [.response { ok := true, status := s.faultCode.code ++ 0#2 ++ 1#2, digest := none }] }) ∧
  (∀ (b : Byte) (s : State), s.phase = .idle → exec (.update b) s = .next (faultedAs .notInitialized s)) ∧
  (∀ (b : Byte) (s : State), s.phase = .done → exec (.update b) s = .next (faultedAs .afterFinalize s)) ∧
  (∀ (b : Byte) (s : State), s.phase = .active → s.totalBits = some 0xFFFFFFFFFFFFFFF8 →
    exec (.update b) s = .next (faultedAs .lengthOverflow s))

/-- The overflow guard: among the multiples of 8, TOTAL_BITS = 2^64 - 8 is the one to which 8 cannot be added; there
UPDATE raises LENGTH_OVERFLOW and changes nothing else; the first byte refused is message byte number 2^61; an UPDATE
that is performed never wraps TOTAL_BITS, which is 8 times the number of bytes taken in (41_init_update.md R113). -/
def Obligations.LengthOverflowGuard : Prop :=
  (∀ l : BitCount, l.toNat % 8 = 0 → (2 ^ 64 ≤ l.toNat + 8 ↔ l = 0xFFFFFFFFFFFFFFF8)) ∧
  (∀ (b : Byte) (s : State), s.phase = .active → s.totalBits = some 0xFFFFFFFFFFFFFFF8 →
    exec (.update b) s = .next (faultedAs .lengthOverflow s)) ∧
  (∀ (b : Byte) (m : List Byte) (s : State), Absorbed m s → m.length < 2 ^ 61 →
    (exec (.update b) s = .next (faultedAs .lengthOverflow s) ↔ m.length + 1 = 2 ^ 61)) ∧
  (∀ (b : Byte) (s t : State) (l : BitCount), s.phase = .active → s.totalBits = some l → l.toNat % 8 = 0 →
    exec (.update b) s = .next t → t.phase ≠ .faulted →
    ∃ l' : BitCount, t.totalBits = some l' ∧ l'.toNat = l.toNat + 8) ∧
  (∀ (m : List Byte) (s : State), Absorbed m s → m.length < 2 ^ 61 →
    ∃ l : BitCount, s.totalBits = some l ∧ l.toNat = 8 * m.length)

/-! ## FINALIZE -/

/-- FINALIZE with the remainder `r` in BUF: H becomes the padded blocks compressed in order, the digest is H serialised,
PHASE becomes DONE, BUF, BUF_LEN and TOTAL_BITS hold no value, and nothing else changes; before INIT it raises
NOT_INITIALIZED, after FINALIZE AFTER_FINALIZE, and a nonzero DATA field makes the word illegal (42_finalize.md R130,
R137). -/
def Obligations.FinalizeEndsTheMessage : Prop :=
  (∀ (s : State) (n : BitVec 6) (l : BitCount) (x : HashWords) (r : List Byte),
    s.phase = .active → s.bufLen = some n → s.totalBits = some l → s.h = some x → r.length = n.toNat →
    (∀ i : Fin 64, i.val < n.toNat → s.buf[i] = some (r.getD i.val 0)) →
    exec .finalize s = .next { s with
      h := some ((finalBlocks r l).foldl compress x)
      buf := Vector.replicate 64 none
      bufLen := none
      totalBits := none
      phase := .done
      out := s.out ++ [.response
        { ok := true, status := s.faultCode.code ++ 0#2 ++ 2#2
          digest := some (serialize ((finalBlocks r l).foldl compress x)) }] }) ∧
  (∀ s : State, s.phase = .idle → exec .finalize s = .next (faultedAs .notInitialized s)) ∧
  (∀ s : State, s.phase = .done → exec .finalize s = .next (faultedAs .afterFinalize s)) ∧
  (∀ b : Byte, b ≠ 0 → decode (0x03#8 ++ b) = .illegal)

/-- The padded blocks byte by byte: one block for a remainder of at most 55 bytes, two from 56 on, with the 0x80 marker
right after the remainder, zeros, and the 64-bit bit count big-endian in bytes 56 to 63 of the last
(42_finalize.md R131, R132, R133, R134). -/
def Obligations.FinalBlockBytes : Prop :=
  ∀ (r : List Byte) (l : BitCount), r.length ≤ 63 →
    (r.length ≤ 55 → ∃ p : Block, finalBlocks r l = [p] ∧
      (∀ i : Fin 64, i.val < r.length → p[i] = r.getD i.val 0) ∧
      (∀ i : Fin 64, i.val = r.length → p[i] = 0x80) ∧
      (∀ i : Fin 64, r.length < i.val → i.val < 56 → p[i] = 0) ∧
      (∀ j : Fin 8, p[56 + j.val] = l.extractLsb' (56 - 8 * j.val) 8)) ∧
    (56 ≤ r.length → ∃ p q : Block, finalBlocks r l = [p, q] ∧
      (∀ i : Fin 64, i.val < r.length → p[i] = r.getD i.val 0) ∧
      (∀ i : Fin 64, i.val = r.length → p[i] = 0x80) ∧
      (∀ i : Fin 64, r.length < i.val → p[i] = 0) ∧
      (∀ i : Fin 64, i.val < 56 → q[i] = 0) ∧
      (∀ j : Fin 8, q[56 + j.val] = l.extractLsb' (56 - 8 * j.val) 8))

/-- The digest is each word's four bytes, most significant first, in word order (42_finalize.md R136). -/
def Obligations.DigestBytes : Prop :=
  (∀ (x : HashWords) (j : Fin 8) (i : Fin 4),
    (serialize x)[4 * j.val + i.val] = (x[j]).extractLsb' (24 - 8 * i.val) 8) ∧
  (∀ x : HashWords, (serialize x)[0] = (x[0]).extractLsb' 24 8 ∧ (serialize x)[31] = (x[7]).extractLsb' 0 8)

/-- How many blocks: one padded block when the remainder is at most 55 bytes and two otherwise, so `N / 64` and one or two
more for a message of N bytes; and the padded message is a whole number of blocks (42_finalize.md R135). -/
def Obligations.PaddedMessageBlockCount : Prop :=
  (∀ (r : List Byte) (l : BitCount), (finalBlocks r l).length = if r.length ≤ 55 then 1 else 2) ∧
  (∀ m : List Byte,
    (paddedMessage m).length % 64 = 0 ∧
    (blocksOf (paddedMessage m)).length = m.length / 64 + if m.length % 64 ≤ 55 then 1 else 2)

/-! ## Usage faults -/

/-- The checking order of a command, each condition deciding when those before it do not hold: a faulted engine rejects
the word; an illegal word faults; UPDATE and FINALIZE fault in IDLE and in DONE; UPDATE faults at TOTAL_BITS = 2^64 - 8;
and any other command is performed, which under the invariant ends in a state that is not faulted. So under the invariant
no command reads an element that holds no value (60_exceptions.md R151). -/
def Obligations.CheckingOrder : Prop :=
  ∀ (s : State) (w : CmdWord) (rest : List HostAction), s.host = .command w :: rest →
    (s.phase = .faulted →
      step s = .next { s with
        host := rest
        out := s.out ++ [.response { ok := false, status := s.faultCode.code ++ 0#2 ++ 3#2, digest := none }] }) ∧
    (s.phase ≠ .faulted → decode w = .illegal →
      step s = .next (faultedAs .illegalCommand { s with host := rest })) ∧
    (∀ i : Instr, decode w = .instr i → i ≠ .init →
      (s.phase = .idle → step s = .next (faultedAs .notInitialized { s with host := rest })) ∧
      (s.phase = .done → step s = .next (faultedAs .afterFinalize { s with host := rest }))) ∧
    (∀ b : Byte, decode w = .instr (.update b) → s.phase = .active → s.totalBits = some 0xFFFFFFFFFFFFFFF8 →
      step s = .next (faultedAs .lengthOverflow { s with host := rest })) ∧
    (∀ i : Instr, decode w = .instr i → s.phase ≠ .faulted → (i ≠ .init → s.phase = .active) →
      (∀ b, i = .update b → s.totalBits ≠ some 0xFFFFFFFFFFFFFFF8) →
      step s = exec i { s with host := rest } ∧
      (EngineInv s → ∃ t, step s = .next t ∧ t.phase ≠ .faulted)) ∧
    (EngineInv s → ∃ t, step s = .next t)

/-- Each usage fault is raised by exactly its cause, with its code; INIT raises none (60_exceptions.md R150). -/
def Obligations.FaultCausesAndCodes : Prop :=
  (FaultCode.none.code = 0 ∧ FaultCode.illegalCommand.code = 1 ∧ FaultCode.notInitialized.code = 2 ∧
    FaultCode.afterFinalize.code = 3 ∧ FaultCode.lengthOverflow.code = 4) ∧
  ∀ (s t : State) (w : CmdWord) (rest : List HostAction),
    EngineInv s → s.phase ≠ .faulted → s.host = .command w :: rest → step s = .next t →
    (t.faultCode = .illegalCommand ↔ decode w = .illegal) ∧
    (t.faultCode = .notInitialized ↔
      s.phase = .idle ∧ ((∃ b, decode w = .instr (.update b)) ∨ decode w = .instr .finalize)) ∧
    (t.faultCode = .afterFinalize ↔
      s.phase = .done ∧ ((∃ b, decode w = .instr (.update b)) ∨ decode w = .instr .finalize)) ∧
    (t.faultCode = .lengthOverflow ↔
      s.phase = .active ∧ (∃ b, decode w = .instr (.update b)) ∧ s.totalBits = some 0xFFFFFFFFFFFFFFF8)

/-- A command given while PHASE = FAULTED, legal or not and INIT too, changes no element of the engine; its response has
ok = 0, STATUS with the first code, and no digest (60_exceptions.md R152). -/
def Obligations.FaultedEngineRejects : Prop :=
  ∀ (s : State) (w : CmdWord) (rest : List HostAction), s.phase = .faulted → s.host = .command w :: rest →
    step s = .next { s with
      host := rest
      out := s.out ++ [.response { ok := false, status := s.faultCode.code ++ 0#2 ++ 3#2, digest := none }] }

/-- A command that ends faulted in an engine that was not faulted has done nothing but enter the fault: PHASE and
FAULT_CODE are written, the response has ok = 0 and no digest, and H, BUF, BUF_LEN and TOTAL_BITS are as before
(60_exceptions.md R153, R154). -/
def Obligations.FaultsArePrecise : Prop :=
  ∀ (s t : State) (w : CmdWord) (rest : List HostAction),
    s.phase ≠ .faulted → s.host = .command w :: rest → step s = .next t → t.phase = .faulted →
    ∃ code : FaultCode, code ≠ .none ∧ t = faultedAs code { s with host := rest }

/-- A fault stays, whatever commands and samples follow, until the host asserts reset: PHASE, FAULT_CODE and the HashState
are unchanged by any number of steps without a reset (60_exceptions.md R155). -/
def Obligations.FaultsStayUntilReset : Prop :=
  ∀ (n : Nat) (s : State), s.phase = .faulted → (∀ a ∈ s.host.take n, a ≠ HostAction.reset) →
    ∃ t, run n s = .next t ∧ t.phase = .faulted ∧ t.faultCode = s.faultCode ∧
      t.h = s.h ∧ t.buf = s.buf ∧ t.bufLen = s.bufLen ∧ t.totalBits = s.totalBits

/-- FAULT_CODE holds the code of the first usage fault since reset, or NONE if none was raised. It is NONE after reset. A
step that changes it is a reset or a command that enters FAULTED; a command that enters FAULTED stores a code other than
NONE; a faulted engine keeps its code in every step that is no reset. And in a run without a reset, from a state with no
fault, the code is NONE as long as no step has faulted, and from then on it is the code that the first faulting command
stored (10_state.md R26). -/
def Obligations.FaultCodeIsTheFirstFault : Prop :=
  State.reset.faultCode = .none ∧
  (∀ s t : State, step s = .next t →
    (∀ rest, s.host = .reset :: rest → t.faultCode = .none) ∧
    (t.faultCode ≠ s.faultCode →
      (∃ rest, s.host = .reset :: rest) ∨
      (∃ w rest, s.host = .command w :: rest ∧ s.phase ≠ .faulted ∧ t.phase = .faulted ∧ t.faultCode ≠ .none)) ∧
    (s.phase ≠ .faulted → t.phase = .faulted → t.faultCode ≠ .none) ∧
    (s.phase = .faulted → (∀ rest, s.host ≠ .reset :: rest) → t.faultCode = s.faultCode)) ∧
  (∀ (n : Nat) (s t : State), s.phase ≠ .faulted → s.faultCode = .none →
    (∀ a ∈ s.host.take n, a ≠ HostAction.reset) → run n s = .next t →
    (t.phase ≠ .faulted ∧ t.faultCode = .none) ∨
    (∃ (k : Nat) (u : State) (w : CmdWord) (rest : List HostAction) (code : FaultCode),
      k < n ∧ run k s = .next u ∧ u.phase ≠ .faulted ∧ u.host = .command w :: rest ∧ code ≠ .none ∧
      step u = .next (faultedAs code { u with host := rest }) ∧ t.phase = .faulted ∧ t.faultCode = code))

/-- What enters each phase: IDLE reset, ACTIVE an INIT, DONE a FINALIZE in ACTIVE, FAULTED a command; and only reset leaves
FAULTED (10_state.md R25). -/
def Obligations.PhaseTransitions : Prop :=
  ∀ (s t : State), step s = .next t → t.phase ≠ s.phase →
    (t.phase = .idle → ∃ rest, s.host = .reset :: rest) ∧
    (t.phase = .active → ∃ w rest, s.host = .command w :: rest ∧ decode w = .instr .init) ∧
    (t.phase = .done → s.phase = .active ∧ ∃ w rest, s.host = .command w :: rest ∧ decode w = .instr .finalize) ∧
    (t.phase = .faulted → ∃ w rest, s.host = .command w :: rest) ∧
    (s.phase = .faulted → ∃ rest, s.host = .reset :: rest)

/-- Which command writes which element: H only INIT, an UPDATE of the 64th byte and FINALIZE; BUF only UPDATE and, leaving
it without values, FINALIZE; UPDATE writes no byte of BUF but BUF[BUF_LEN]; BUF_LEN and TOTAL_BITS any of the three; PHASE
only INIT and FINALIZE; FAULT_CODE none of them; and a command that ends faulted none of the HashState
(10_state.md R33). -/
def Obligations.AccessSummary : Prop :=
  ∀ (s t : State) (w : CmdWord) (rest : List HostAction), s.host = .command w :: rest → step s = .next t →
    (t.phase ≠ .faulted →
      (∃ i, decode w = .instr i) ∧ t.faultCode = s.faultCode ∧
      (t.h = s.h ∨ decode w = .instr .init ∨ decode w = .instr .finalize ∨
        ((∃ b, decode w = .instr (.update b)) ∧ s.bufLen = some 63)) ∧
      (decode w = .instr .init → t.buf = s.buf) ∧
      (∀ b, decode w = .instr (.update b) → ∃ n, s.bufLen = some n ∧ t.buf[n.toNat]'n.isLt = some b ∧
        ∀ i : Fin 64, i.val ≠ n.toNat → t.buf[i] = s.buf[i]) ∧
      (∀ b, decode w = .instr (.update b) → t.phase = s.phase)) ∧
    (t.phase = .faulted → t.h = s.h ∧ t.buf = s.buf ∧ t.bufLen = s.bufLen ∧ t.totalBits = s.totalBits)

/-! ## Invariants -/

/-- The invariant holds right after reset. -/
def Obligations.EngineInvAtReset : Prop := EngineInv State.reset

/-- Every step keeps the invariant: BUF_LEN = (TOTAL_BITS / 8) mod 64 and TOTAL_BITS is a multiple of 8 while a message is
in progress, exactly the elements the spec gives a value hold one in each phase, and a fault code stands exactly in the
faulted phase (10_state.md R23 to R26, R34). -/
def Obligations.EveryStepKeepsEngineInv : Prop :=
  ∀ s t : State, EngineInv s → step s = .next t → EngineInv t

/-- No step stops in a state that meets the invariant: an element that holds no value is never read (10_state.md R34). -/
def Obligations.NoStepReadsAValuelessElement : Prop :=
  ∀ s : State, EngineInv s → ∃ t, step s = .next t

/-! ## Whole messages -/

/-- INIT gives an engine that has taken in the empty message, and an UPDATE adds its byte to the message taken in: H is
the whole blocks compressed in order from IV, byte k stands in BUF[k mod 64], TOTAL_BITS is 8 times the number of bytes
(20_memory.md R43, R49; 41_init_update.md R111 to R115). INIT is taken in every phase but FAULTED, ACTIVE included: that
INIT inside a message is performed is the spec's decision D13 (92_eei_decisions.md; log entry 13). -/
def Obligations.UpdatesAbsorbTheMessage : Prop :=
  (∀ s : State, s.phase ≠ .faulted → ∃ t, exec .init s = .next t ∧ Absorbed [] t) ∧
  (∀ (b : Byte) (m : List Byte) (s : State), Absorbed m s → m.length + 1 < 2 ^ 61 →
    ∃ t, exec (.update b) s = .next t ∧ Absorbed (m ++ [b]) t)

/-- FINALIZE of an engine that has taken in the message `m` answers with the SHA-256 digest of `m`, computed without the
engine from the padded message (42_finalize.md R130 to R136; 20_memory.md R49). -/
def Obligations.FinalizeAnswersTheMessageDigest : Prop :=
  ∀ (m : List Byte) (s : State), Absorbed m s → m.length < 2 ^ 61 →
    ∃ t st, exec .finalize s = .next t ∧ t.phase = .done ∧
      t.out = s.out ++ [.response { ok := true, status := st, digest := some (sha256 m) }]

/-- A host's sequence for one message, INIT, one UPDATE for each byte and FINALIZE, from any state without a fault: every
command is performed, and the last response carries the SHA-256 digest of the message (70_reset_and_hazards.md R173, R174;
20_memory.md R49; 41_init_update.md R111 to R115; 42_finalize.md R130 to R136). The states include those of a message in
progress: that INIT inside a message is performed is the spec's decision D13 (92_eei_decisions.md; log entry 13). -/
def Obligations.MessageRunAnswersItsDigest : Prop :=
  ∀ (m : List Byte) (s : State) (rest : List HostAction), m.length < 2 ^ 61 → s.phase ≠ .faulted → s.faultCode = .none →
    s.host = .command (encode .init) :: (m.map fun b => .command (encode (.update b))) ++
      .command (encode .finalize) :: rest →
    ∃ t, run (m.length + 2) s = .next t ∧ t.phase = .done ∧ t.faultCode = .none ∧ t.host = rest ∧
      t.out = s.out ++ List.replicate (m.length + 1) (.response { ok := true, status := 0x01, digest := none }) ++
        [.response { ok := true, status := 0x02, digest := some (sha256 m) }]

/-! ## Several engines -/

/-- A step of engine `j` is that engine's own step, leaves every other engine as it is, and steps of two engines come to
the same in either order (60_exceptions.md R160). -/
def Obligations.EnginesAreIndependent : Prop :=
  ∀ (n : Nat) (p : Platform n) (j : Fin n),
    (∀ q : Platform n, stepEngine j p = .next q →
      step p.engines[j] = .next q.engines[j] ∧ ∀ i : Fin n, i ≠ j → q.engines[i] = p.engines[i]) ∧
    (∀ (i : Fin n) (q q' : Platform n), i ≠ j → stepEngine j p = .next q → stepEngine i p = .next q' →
      ∃ r, stepEngine i q = .next r ∧ stepEngine j q' = .next r)

/-! ## Time parameters -/

/-- Which time parameter a command takes. A performed INIT takes T_INIT, a performed FINALIZE T_FINALIZE, and a performed
UPDATE T_UPDATE_COMPRESS when its byte is the 64th of a block and T_UPDATE otherwise (70_reset_and_hazards.md R178). That a
command which is not performed has none is the model's choice (log entry 10). -/
def Obligations.PerformedCommandsHaveATime : Prop :=
  ∀ (p : Config.Params) (i : Instr) (s t : State), exec i s = .next t →
    (commandTime p i s ≠ none ↔ t.phase ≠ .faulted) ∧
    (i = .init → t.phase ≠ .faulted → commandTime p i s = some p.tInit) ∧
    (∀ b, i = .update b → t.phase ≠ .faulted →
      commandTime p i s = some (if s.bufLen = some 63 then p.tUpdateCompress else p.tUpdate)) ∧
    (i = .finalize → t.phase ≠ .faulted → commandTime p i s = some p.tFinalize)
end

