-- ==== Sys2Proof/Laws/State.lean ====
section
/-! SUPPORT. What each shared update of the state leaves in each field, true by unfolding. A proof cites these instead of
unfolding an update. -/

namespace Sys2Proof.Machine

/-! ### `State.emit` -/

@[simp] theorem State.emit_h (o : Output) (s : State) : (s.emit o).h = s.h := rfl
@[simp] theorem State.emit_buf (o : Output) (s : State) : (s.emit o).buf = s.buf := rfl
@[simp] theorem State.emit_bufLen (o : Output) (s : State) : (s.emit o).bufLen = s.bufLen := rfl
@[simp] theorem State.emit_totalBits (o : Output) (s : State) : (s.emit o).totalBits = s.totalBits := rfl
@[simp] theorem State.emit_phase (o : Output) (s : State) : (s.emit o).phase = s.phase := rfl
@[simp] theorem State.emit_faultCode (o : Output) (s : State) : (s.emit o).faultCode = s.faultCode := rfl
@[simp] theorem State.emit_host (o : Output) (s : State) : (s.emit o).host = s.host := rfl
@[simp] theorem State.emit_out (o : Output) (s : State) : (s.emit o).out = s.out ++ [o] := rfl
@[simp] theorem State.emit_status (o : Output) (s : State) : (s.emit o).status = s.status := rfl

/-! ### `State.respond` -/

@[simp] theorem State.respond_h (ok : Bool) (d : Option Digest) (s : State) : (s.respond ok d).h = s.h := rfl
@[simp] theorem State.respond_buf (ok : Bool) (d : Option Digest) (s : State) : (s.respond ok d).buf = s.buf := rfl
@[simp] theorem State.respond_bufLen (ok : Bool) (d : Option Digest) (s : State) : (s.respond ok d).bufLen = s.bufLen := rfl
@[simp] theorem State.respond_totalBits (ok : Bool) (d : Option Digest) (s : State) : (s.respond ok d).totalBits = s.totalBits := rfl
@[simp] theorem State.respond_phase (ok : Bool) (d : Option Digest) (s : State) : (s.respond ok d).phase = s.phase := rfl
@[simp] theorem State.respond_faultCode (ok : Bool) (d : Option Digest) (s : State) : (s.respond ok d).faultCode = s.faultCode := rfl
@[simp] theorem State.respond_host (ok : Bool) (d : Option Digest) (s : State) : (s.respond ok d).host = s.host := rfl
@[simp] theorem State.respond_out (ok : Bool) (d : Option Digest) (s : State) : (s.respond ok d).out = s.out ++ [.response ⟨ok, s.status, d⟩] := rfl
@[simp] theorem State.respond_status (ok : Bool) (d : Option Digest) (s : State) : (s.respond ok d).status = s.status := rfl

/-! ### `State.raiseUsageFault` -/

@[simp] theorem State.raiseUsageFault_h (code : FaultCode) (s : State) : (s.raiseUsageFault code).h = s.h := rfl
@[simp] theorem State.raiseUsageFault_buf (code : FaultCode) (s : State) : (s.raiseUsageFault code).buf = s.buf := rfl
@[simp] theorem State.raiseUsageFault_bufLen (code : FaultCode) (s : State) : (s.raiseUsageFault code).bufLen = s.bufLen := rfl
@[simp] theorem State.raiseUsageFault_totalBits (code : FaultCode) (s : State) : (s.raiseUsageFault code).totalBits = s.totalBits := rfl
@[simp] theorem State.raiseUsageFault_phase (code : FaultCode) (s : State) : (s.raiseUsageFault code).phase = .faulted := rfl
@[simp] theorem State.raiseUsageFault_faultCode (code : FaultCode) (s : State) : (s.raiseUsageFault code).faultCode = code := rfl
@[simp] theorem State.raiseUsageFault_host (code : FaultCode) (s : State) : (s.raiseUsageFault code).host = s.host := rfl
@[simp] theorem State.raiseUsageFault_out (code : FaultCode) (s : State) : (s.raiseUsageFault code).out = s.out ++ [.response ⟨false, code.code ++ 0#2 ++ 3#2, none⟩] := rfl

/-! ### `State.reject` -/

@[simp] theorem State.reject_h (s : State) : s.reject.h = s.h := rfl
@[simp] theorem State.reject_buf (s : State) : s.reject.buf = s.buf := rfl
@[simp] theorem State.reject_bufLen (s : State) : s.reject.bufLen = s.bufLen := rfl
@[simp] theorem State.reject_totalBits (s : State) : s.reject.totalBits = s.totalBits := rfl
@[simp] theorem State.reject_phase (s : State) : s.reject.phase = s.phase := rfl
@[simp] theorem State.reject_faultCode (s : State) : s.reject.faultCode = s.faultCode := rfl
@[simp] theorem State.reject_host (s : State) : s.reject.host = s.host := rfl
@[simp] theorem State.reject_out (s : State) : s.reject.out = s.out ++ [.response ⟨false, s.status, none⟩] := rfl
@[simp] theorem State.reject_status (s : State) : s.reject.status = s.status := rfl

/-! ### `State.hostReset` -/

@[simp] theorem State.hostReset_h (s : State) : s.hostReset.h = none := rfl
@[simp] theorem State.hostReset_buf (s : State) : s.hostReset.buf = valuelessBuf := rfl
@[simp] theorem State.hostReset_bufLen (s : State) : s.hostReset.bufLen = none := rfl
@[simp] theorem State.hostReset_totalBits (s : State) : s.hostReset.totalBits = none := rfl
@[simp] theorem State.hostReset_phase (s : State) : s.hostReset.phase = .idle := rfl
@[simp] theorem State.hostReset_faultCode (s : State) : s.hostReset.faultCode = .none := rfl
@[simp] theorem State.hostReset_host (s : State) : s.hostReset.host = s.host := rfl
@[simp] theorem State.hostReset_out (s : State) : s.hostReset.out = s.out := rfl

/-! ### `State.sample` -/

@[simp] theorem State.sample_h (s : State) : s.sample.h = s.h := rfl
@[simp] theorem State.sample_buf (s : State) : s.sample.buf = s.buf := rfl
@[simp] theorem State.sample_bufLen (s : State) : s.sample.bufLen = s.bufLen := rfl
@[simp] theorem State.sample_totalBits (s : State) : s.sample.totalBits = s.totalBits := rfl
@[simp] theorem State.sample_phase (s : State) : s.sample.phase = s.phase := rfl
@[simp] theorem State.sample_faultCode (s : State) : s.sample.faultCode = s.faultCode := rfl
@[simp] theorem State.sample_host (s : State) : s.sample.host = s.host := rfl
@[simp] theorem State.sample_out (s : State) : s.sample.out = s.out ++ [.statusSample s.status] := rfl
@[simp] theorem State.sample_status (s : State) : s.sample.status = s.status := rfl

/-! ### `State.startMessage` -/

@[simp] theorem State.startMessage_h (s : State) : s.startMessage.h = some iv := rfl
@[simp] theorem State.startMessage_buf (s : State) : s.startMessage.buf = s.buf := rfl
@[simp] theorem State.startMessage_bufLen (s : State) : s.startMessage.bufLen = some 0 := rfl
@[simp] theorem State.startMessage_totalBits (s : State) : s.startMessage.totalBits = some 0 := rfl
@[simp] theorem State.startMessage_phase (s : State) : s.startMessage.phase = .active := rfl
@[simp] theorem State.startMessage_faultCode (s : State) : s.startMessage.faultCode = s.faultCode := rfl
@[simp] theorem State.startMessage_host (s : State) : s.startMessage.host = s.host := rfl
@[simp] theorem State.startMessage_out (s : State) : s.startMessage.out = s.out := rfl

/-! ### `State.appendByte` -/

@[simp] theorem State.appendByte_h (b : Byte) (n : BitVec 6) (l : BitCount) (s : State) : (s.appendByte b n l).h = s.h := rfl
@[simp] theorem State.appendByte_buf (b : Byte) (n : BitVec 6) (l : BitCount) (s : State) : (s.appendByte b n l).buf = writeByte s.buf n b := rfl
@[simp] theorem State.appendByte_bufLen (b : Byte) (n : BitVec 6) (l : BitCount) (s : State) : (s.appendByte b n l).bufLen = s.bufLen := rfl
@[simp] theorem State.appendByte_totalBits (b : Byte) (n : BitVec 6) (l : BitCount) (s : State) : (s.appendByte b n l).totalBits = some (l + 8) := rfl
@[simp] theorem State.appendByte_phase (b : Byte) (n : BitVec 6) (l : BitCount) (s : State) : (s.appendByte b n l).phase = s.phase := rfl
@[simp] theorem State.appendByte_faultCode (b : Byte) (n : BitVec 6) (l : BitCount) (s : State) : (s.appendByte b n l).faultCode = s.faultCode := rfl
@[simp] theorem State.appendByte_host (b : Byte) (n : BitVec 6) (l : BitCount) (s : State) : (s.appendByte b n l).host = s.host := rfl
@[simp] theorem State.appendByte_out (b : Byte) (n : BitVec 6) (l : BitCount) (s : State) : (s.appendByte b n l).out = s.out := rfl
@[simp] theorem State.appendByte_status (b : Byte) (n : BitVec 6) (l : BitCount) (s : State) : (s.appendByte b n l).status = s.status := rfl

/-! ### `State.endMessage` -/

@[simp] theorem State.endMessage_h (x : HashWords) (s : State) : (s.endMessage x).h = some x := rfl
@[simp] theorem State.endMessage_buf (x : HashWords) (s : State) : (s.endMessage x).buf = valuelessBuf := rfl
@[simp] theorem State.endMessage_bufLen (x : HashWords) (s : State) : (s.endMessage x).bufLen = none := rfl
@[simp] theorem State.endMessage_totalBits (x : HashWords) (s : State) : (s.endMessage x).totalBits = none := rfl
@[simp] theorem State.endMessage_phase (x : HashWords) (s : State) : (s.endMessage x).phase = .done := rfl
@[simp] theorem State.endMessage_faultCode (x : HashWords) (s : State) : (s.endMessage x).faultCode = s.faultCode := rfl
@[simp] theorem State.endMessage_host (x : HashWords) (s : State) : (s.endMessage x).host = s.host := rfl
@[simp] theorem State.endMessage_out (x : HashWords) (s : State) : (s.endMessage x).out = s.out := rfl

/-! ### `State.present` -/

@[simp] theorem State.present_h (w : CmdWord) (s : State) : (s.present w).h = s.h := rfl
@[simp] theorem State.present_buf (w : CmdWord) (s : State) : (s.present w).buf = s.buf := rfl
@[simp] theorem State.present_bufLen (w : CmdWord) (s : State) : (s.present w).bufLen = s.bufLen := rfl
@[simp] theorem State.present_totalBits (w : CmdWord) (s : State) : (s.present w).totalBits = s.totalBits := rfl
@[simp] theorem State.present_phase (w : CmdWord) (s : State) : (s.present w).phase = s.phase := rfl
@[simp] theorem State.present_faultCode (w : CmdWord) (s : State) : (s.present w).faultCode = s.faultCode := rfl
@[simp] theorem State.present_host (w : CmdWord) (s : State) : (s.present w).host = .command w :: s.host := rfl
@[simp] theorem State.present_out (w : CmdWord) (s : State) : (s.present w).out = s.out := rfl
@[simp] theorem State.present_status (w : CmdWord) (s : State) : (s.present w).status = s.status := rfl

/-! ### STATUS -/

theorem status_of_phase_idle {s : State} (p : s.phase = .idle) : s.status = s.faultCode.code ++ 0#2 ++ 0#2 := by
  simp [State.status, Phase.code, p]

theorem status_of_phase_active {s : State} (p : s.phase = .active) : s.status = s.faultCode.code ++ 0#2 ++ 1#2 := by
  simp [State.status, Phase.code, p]

theorem status_of_phase_done {s : State} (p : s.phase = .done) : s.status = s.faultCode.code ++ 0#2 ++ 2#2 := by
  simp [State.status, Phase.code, p]

theorem status_of_phase_faulted {s : State} (p : s.phase = .faulted) : s.status = s.faultCode.code ++ 0#2 ++ 3#2 := by
  simp [State.status, Phase.code, p]

end Sys2Proof.Machine
end

