-- ==== Sys2Proof/Laws/Ops.lean ====
section
/-! SUPPORT. What the shared operations do: the phase checks, reading an element that may hold no value, reading and
writing BUF, and entering a usage fault. -/

namespace Sys2Proof.Machine

/-! ### The phase checks (60_exceptions.md R151, R152) -/

@[simp] theorem unlessFaulted_of_faulted {s : State} {r : Result} (p : s.phase = .faulted) :
    unlessFaulted s r = .next s.reject := by simp [unlessFaulted, p]

theorem unlessFaulted_of_not_faulted {s : State} {r : Result} (p : s.phase ≠ .faulted) : unlessFaulted s r = r := by
  unfold unlessFaulted
  split
  · contradiction
  all_goals rfl

@[simp] theorem whenActive_of_faulted {s : State} {r : Result} (p : s.phase = .faulted) :
    whenActive s r = .next s.reject := by simp [whenActive, p]

@[simp] theorem whenActive_of_idle {s : State} {r : Result} (p : s.phase = .idle) :
    whenActive s r = .next (s.raiseUsageFault .notInitialized) := by simp [whenActive, p]

@[simp] theorem whenActive_of_done {s : State} {r : Result} (p : s.phase = .done) :
    whenActive s r = .next (s.raiseUsageFault .afterFinalize) := by simp [whenActive, p]

@[simp] theorem whenActive_of_active {s : State} {r : Result} (p : s.phase = .active) : whenActive s r = r := by
  simp [whenActive, p]

/-! ### Elements that may hold no value (10_state.md R34) -/

@[simp] theorem need_some {α : Type} (e : Element) (x : α) (use : α → Result) : need e (some x) use = use x := rfl

@[simp] theorem need_none {α : Type} (e : Element) (use : α → Result) :
    need e none use = .refused (.valuelessRead e) := rfl

/-- A next state after reading an element: the element holds a value, and the state is what its use gives. -/
theorem need_next {α : Type} {e : Element} {v : Option α} {use : α → Result} {t : State}
    (run : need e v use = .next t) : ∃ x, v = some x ∧ use x = .next t := by
  cases v with
  | none => simp at run
  | some x => exact ⟨x, rfl, run⟩

/-! ### Usage faults (60_exceptions.md R153) -/

theorem raiseUsageFault_eq_faultedAs (code : FaultCode) (s : State) : s.raiseUsageFault code = faultedAs code s := by
  simp only [State.raiseUsageFault, State.respond, State.emit, faultedAs, State.status, Phase.code]
  congr 4
  cases code <;> decide

@[simp] theorem faultedAs_phase (code : FaultCode) (s : State) : (faultedAs code s).phase = .faulted := rfl

@[simp] theorem faultedAs_faultCode (code : FaultCode) (s : State) : (faultedAs code s).faultCode = code := rfl

/-! ### Reading BUF (00_scope.md R13) -/

/-- Every entry holds a value exactly when the list is the image of a list of values, which is then the one read. -/
theorem allValues_eq_some {α : Type} {l : List (Option α)} {xs : List α} :
    allValues l = some xs ↔ l = xs.map some := by
  induction l generalizing xs with
  | nil => cases xs <;> simp [allValues]
  | cons v rest ih =>
    cases v with
    | none => cases xs <;> simp [allValues]
    | some x => cases xs <;> simp [allValues, ih, and_comm, eq_comm (a := x)]

@[simp] theorem allValues_map_some {α : Type} (xs : List α) : allValues (xs.map some) = some xs :=
  allValues_eq_some.mpr rfl

/-- BUF reads as the block `blk` exactly when each of its bytes holds that block's byte. -/
theorem readBlock_eq_some {buf : Vector (Option Byte) 64} {blk : Block} :
    readBlock buf = some blk ↔ buf = blk.map some := by
  unfold readBlock
  split
  next bytes all =>
    have image := allValues_eq_some.mp all
    have len : bytes.length = 64 := by simpa using (congrArg List.length image).symm
    have inj := List.map_injective_iff.mpr (Option.some_injective Byte)
    simp only [len, ↓reduceDIte, Option.some.injEq, ← Vector.toList_inj, Vector.toList_map, image, inj.eq_iff]
    rfl
  next missing =>
    constructor
    · simp
    · rintro rfl
      simp [Vector.toList_map] at missing

/-- The same, byte by byte. -/
theorem readBlock_eq_some_bytes {buf : Vector (Option Byte) 64} {blk : Block} :
    readBlock buf = some blk ↔ ∀ i : Fin 64, buf[i] = some blk[i] := by
  rw [readBlock_eq_some]
  constructor
  · rintro rfl i
    simp
  · intro same
    apply Vector.ext
    intro i hi
    simpa using same ⟨i, hi⟩

/-- The first `n` bytes of BUF read as `r` exactly when there are `n` of them and each holds its byte of `r`. -/
theorem readPrefix_eq_some {buf : Vector (Option Byte) 64} {n : Nat} {r : List Byte} (small : n ≤ 64) :
    readPrefix buf n = some r ↔ r.length = n ∧ ∀ i : Fin 64, i.val < n → buf[i] = some (r.getD i.val 0) := by
  unfold readPrefix
  rw [allValues_eq_some]
  constructor
  · intro image
    have len : r.length = n := by
      have := congrArg List.length image
      simp at this
      omega
    refine ⟨len, fun i below => ?_⟩
    have at_i := congrArg (fun l => l[i.val]?) image
    simp [below, len] at at_i
    simpa [List.getD, len, below] using at_i
  · rintro ⟨len, same⟩
    apply List.ext_getElem
    · simp; omega
    · intro i h₁ h₂
      simp at h₁ h₂
      have := same ⟨i, by omega⟩ (by simpa using h₁.1)
      simp [List.getD, h₂] at this
      simpa using this

/-! ### Writing BUF (41_init_update.md R114) -/

@[simp] theorem writeByte_same (buf : Vector (Option Byte) 64) (i : BitVec 6) (b : Byte) :
    (writeByte buf i b)[i.toNat]'i.isLt = some b := by simp [writeByte]

theorem writeByte_other (buf : Vector (Option Byte) 64) (i : BitVec 6) (b : Byte) (j : Fin 64)
    (other : j.val ≠ i.toNat) : (writeByte buf i b)[j] = buf[j] := by
  simp [writeByte, Ne.symm other]

@[simp] theorem valuelessBuf_getElem (i : Fin 64) : valuelessBuf[i] = none := by simp [valuelessBuf]

end Sys2Proof.Machine
end

