-- ==== Sys2Proof/Laws/Commands.lean ====
section
/-! SUPPORT. What each command can do, said once: `execX s = .next t` holds exactly when `t` is one of the named outcomes
(60_exceptions.md R151; 41_init_update.md R111, R112; 42_finalize.md R130). -/

namespace Sys2Proof.Machine

/-- The next states of INIT. -/
inductive InitOutcome (s : State) : State → Prop where
  | rejected (p : s.phase = .faulted) : InitOutcome s s.reject
  | started (p : s.phase ≠ .faulted) : InitOutcome s (s.startMessage.respond true none)

theorem execInit_next_iff {s t : State} : execInit s = .next t ↔ InitOutcome s t := by
  constructor
  · intro run
    by_cases p : s.phase = .faulted
    · rw [execInit, unlessFaulted_of_faulted p] at run
      cases run
      exact .rejected p
    · rw [execInit, unlessFaulted_of_not_faulted p] at run
      cases run
      exact .started p
  · rintro (p | p)
    · rw [execInit, unlessFaulted_of_faulted p]
    · rw [execInit, unlessFaulted_of_not_faulted p]

/-- The next states of UPDATE of the byte `b`. -/
inductive UpdateOutcome (b : Byte) (s : State) : State → Prop where
  | rejected (p : s.phase = .faulted) : UpdateOutcome b s s.reject
  | notInitialized (p : s.phase = .idle) : UpdateOutcome b s (s.raiseUsageFault .notInitialized)
  | afterFinalize (p : s.phase = .done) : UpdateOutcome b s (s.raiseUsageFault .afterFinalize)
  | overflowed (p : s.phase = .active) (full : s.totalBits = some lastTotalBits) :
      UpdateOutcome b s (s.raiseUsageFault .lengthOverflow)
  | appended (l : BitCount) (n : BitVec 6) (p : s.phase = .active) (total : s.totalBits = some l)
      (room : l ≠ lastTotalBits) (len : s.bufLen = some n) (more : n ≠ 63) :
      UpdateOutcome b s (State.respond true none { s.appendByte b n l with bufLen := some (n + 1) })
  | drained (l : BitCount) (x : HashWords) (blk : Block) (p : s.phase = .active) (total : s.totalBits = some l)
      (room : l ≠ lastTotalBits) (len : s.bufLen = some 63) (hash : s.h = some x)
      (read : readBlock (writeByte s.buf 63 b) = some blk) :
      UpdateOutcome b s
        (State.respond true none { s.appendByte b 63 l with h := some (compress x blk), bufLen := some 0 })

theorem execUpdate_next_iff {b : Byte} {s t : State} : execUpdate b s = .next t ↔ UpdateOutcome b s t := by
  constructor
  · intro run
    cases p : s.phase with
    | faulted =>
      rw [execUpdate, whenActive_of_faulted p] at run
      cases run
      exact .rejected p
    | idle =>
      rw [execUpdate, whenActive_of_idle p] at run
      cases run
      exact .notInitialized p
    | done =>
      rw [execUpdate, whenActive_of_done p] at run
      cases run
      exact .afterFinalize p
    | active =>
      rw [execUpdate, whenActive_of_active p] at run
      obtain ⟨l, total, run⟩ := need_next run
      split at run
      next full =>
        cases run
        exact .overflowed p (full ▸ total)
      next room =>
        obtain ⟨n, len, run⟩ := need_next run
        unfold drainIfFull at run
        split at run
        next full =>
          subst full
          obtain ⟨x, hash, run⟩ := need_next run
          obtain ⟨blk, read, run⟩ := need_next run
          cases run
          exact .drained l x blk p total room len hash read
        next more =>
          cases run
          exact .appended l n p total room len more
  · intro outcome
    cases outcome with
    | rejected p => rw [execUpdate, whenActive_of_faulted p]
    | notInitialized p => rw [execUpdate, whenActive_of_idle p]
    | afterFinalize p => rw [execUpdate, whenActive_of_done p]
    | overflowed p full => simp [execUpdate, p, full]
    | appended l n p total room len more =>
      rw [execUpdate, whenActive_of_active p, total, need_some, if_neg room, len, need_some, drainIfFull, if_neg more]
    | drained l x blk p total room len hash read =>
      rw [execUpdate, whenActive_of_active p, total, need_some, if_neg room, len, need_some, drainIfFull, if_pos rfl,
        State.appendByte_h, hash, need_some, State.appendByte_buf, read, need_some]
      rfl

/-- The next states of FINALIZE. -/
inductive FinalizeOutcome (s : State) : State → Prop where
  | rejected (p : s.phase = .faulted) : FinalizeOutcome s s.reject
  | notInitialized (p : s.phase = .idle) : FinalizeOutcome s (s.raiseUsageFault .notInitialized)
  | afterFinalize (p : s.phase = .done) : FinalizeOutcome s (s.raiseUsageFault .afterFinalize)
  | ended (n : BitVec 6) (l : BitCount) (r : List Byte) (x y : HashWords) (p : s.phase = .active)
      (len : s.bufLen = some n) (total : s.totalBits = some l) (read : readPrefix s.buf n.toNat = some r)
      (hash : s.h = some x) (last : y = (finalBlocks r l).foldl compress x) :
      FinalizeOutcome s ((s.endMessage y).respond true (some (serialize y)))

theorem execFinalize_next_iff {s t : State} : execFinalize s = .next t ↔ FinalizeOutcome s t := by
  constructor
  · intro run
    cases p : s.phase with
    | faulted =>
      rw [execFinalize, whenActive_of_faulted p] at run
      cases run
      exact .rejected p
    | idle =>
      rw [execFinalize, whenActive_of_idle p] at run
      cases run
      exact .notInitialized p
    | done =>
      rw [execFinalize, whenActive_of_done p] at run
      cases run
      exact .afterFinalize p
    | active =>
      rw [execFinalize, whenActive_of_active p] at run
      obtain ⟨n, len, run⟩ := need_next run
      obtain ⟨l, total, run⟩ := need_next run
      obtain ⟨r, read, run⟩ := need_next run
      obtain ⟨x, hash, run⟩ := need_next run
      cases run
      exact .ended n l r x _ p len total read hash rfl
  · intro outcome
    cases outcome with
    | rejected p => rw [execFinalize, whenActive_of_faulted p]
    | notInitialized p => rw [execFinalize, whenActive_of_idle p]
    | afterFinalize p => rw [execFinalize, whenActive_of_done p]
    | ended n l r x y p len total read hash last => subst last; simp [execFinalize, p, len, total, read, hash]

end Sys2Proof.Machine
end

