-- ==== Sys2Proof/Laws/Compress.lean ====
section
/-! SUPPORT. The packing of a word from bytes, and the shape of the schedule and of the rounds (00_scope.md R12;
40_compress.md R87, R88, R91). -/

namespace Sys2Proof.Machine

/-- A word packed from four bytes is these bytes side by side, the first the most significant. -/
theorem be32_append (b0 b1 b2 b3 : Byte) : be32 b0 b1 b2 b3 = b0 ++ b1 ++ b2 ++ b3 := by
  apply BitVec.eq_of_getLsbD_eq
  intro i below
  simp only [be32, BitVec.getLsbD_or, BitVec.getLsbD_shiftLeft, BitVec.getLsbD_setWidth, BitVec.getLsbD_append]
  by_cases low : i < 8
  · simp [low, below, show i < 24 by omega, show i < 16 by omega]
  have none3 := BitVec.getLsbD_of_ge b3 i (by omega)
  by_cases second : i < 16
  · simp [low, second, below, none3, show i < 24 by omega, show i - 8 < 8 by omega, show i - 8 < 32 by omega]
  have none2 := BitVec.getLsbD_of_ge b2 (i - 8) (by omega)
  by_cases third : i < 24
  · simp [low, second, third, below, none3, none2, show i - 8 - 8 = i - 16 by omega, show ¬i - 8 < 8 by omega,
      show i - 16 < 8 by omega, show i - 16 < 32 by omega]
  have none1 := BitVec.getLsbD_of_ge b1 (i - 16) (by omega)
  simp [low, second, third, below, none3, none2, none1, show i - 8 - 8 = i - 16 by omega,
    show i - 16 - 8 = i - 24 by omega, show ¬i - 8 < 8 by omega, show ¬i - 16 < 8 by omega,
    show i - 24 < 32 by omega]

@[simp] theorem scheduleTo_length (blk : Block) (n : Nat) : (scheduleTo blk n).length = 16 + n := by
  induction n with
  | zero => simp [scheduleTo]
  | succ n ih => simp [scheduleTo, ih]; omega

/-- A word of the schedule stays what it is while the schedule grows. -/
theorem scheduleTo_stable (blk : Block) (n d i : Nat) (known : i < 16 + n) :
    (scheduleTo blk (n + d)).getD i 0 = (scheduleTo blk n).getD i 0 := by
  induction d with
  | zero => rfl
  | succ d ih =>
    rw [← ih, ← Nat.add_assoc, scheduleTo, List.getD_append _ _ _ _ (by rw [scheduleTo_length]; omega)]

/-- A word of the whole schedule, read from any part of it that reaches that far. -/
theorem schedule_getD (blk : Block) (n i : Nat) (known : i < 16 + n) (part : n ≤ 48) :
    (schedule blk).getD i 0 = (scheduleTo blk n).getD i 0 := by
  rw [schedule, ← scheduleTo_stable blk n (48 - n) i known, Nat.add_sub_cancel' part]

@[simp] theorem roundsTo_zero (w : List Word) (v : WorkVars) : roundsTo w v 0 = v := rfl

theorem roundsTo_succ (w : List Word) (v : WorkVars) (t : Nat) :
    roundsTo w v (t + 1) = roundStep (roundConstant t) (w.getD t 0) (roundsTo w v t) := rfl

end Sys2Proof.Machine
end

