-- ==== Sys2Proof/Laws/Encoding.lean ====
section
/-! SUPPORT. The fields of a word and of a command's word (30_encoding.md R60). -/

namespace Sys2Proof

/-- A word is its two fields. -/
theorem opField_append_dataField (w : CmdWord) : opField w ++ dataField w = w := by
  apply BitVec.eq_of_getLsbD_eq
  intro i below
  simp only [opField, dataField, BitVec.getLsbD_append, BitVec.getLsbD_extractLsb']
  by_cases low : i < 8
  · simp [low]
  · have : i - 8 < 8 := by omega
    simp [low, this, show 8 + (i - 8) = i by omega]

@[simp] theorem opField_append (op data : Byte) : opField (op ++ data) = op := by
  apply BitVec.eq_of_getLsbD_eq
  intro i below
  simp only [opField, BitVec.getLsbD_extractLsb', BitVec.getLsbD_append, below, decide_true, Bool.true_and]
  simp

@[simp] theorem dataField_append (op data : Byte) : dataField (op ++ data) = data := by
  apply BitVec.eq_of_getLsbD_eq
  intro i below
  simp only [dataField, BitVec.getLsbD_extractLsb', BitVec.getLsbD_append, below, decide_true, Bool.true_and]
  simp [below]

/-- Two words are the same exactly when their fields are. -/
theorem word_eq_iff (v w : CmdWord) : v = w ↔ opField v = opField w ∧ dataField v = dataField w :=
  ⟨fun same => same ▸ ⟨rfl, rfl⟩, fun ⟨op, data⟩ => by
    rw [← opField_append_dataField v, ← opField_append_dataField w, op, data]⟩

theorem opField_toNat (w : CmdWord) : (opField w).toNat = w.toNat / 256 := by
  simp [opField, BitVec.extractLsb'_toNat, Nat.shiftRight_eq_div_pow]
  omega

theorem dataField_toNat (w : CmdWord) : (dataField w).toNat = w.toNat % 256 := by
  simp [dataField, BitVec.extractLsb'_toNat]

end Sys2Proof
end

