-- ==== Sys2Proof/Laws/Message.lean ====
section
/-! SUPPORT. How a byte sequence grows by blocks, the bytes of the padding, and that the padded blocks of FINALIZE are the
end of the padded message (20_memory.md R43, R49; 42_finalize.md R131 to R135). -/

namespace Sys2Proof.Machine

/-- A block that a sequence already has does not depend on what follows it. -/
theorem blockAt_append (m x : List Byte) (i : Nat) (whole : 64 * i + 64 ≤ m.length) :
    blockAt (m ++ x) i = blockAt m i := by
  apply Vector.ext
  intro j below
  simp only [blockAt, Vector.getElem_ofFn]
  exact List.getD_append _ _ _ _ (by omega)

/-- The blocks of a longer sequence: those of its first part, then the blocks from there on. -/
theorem blocksOf_append (m x : List Byte) :
    blocksOf (m ++ x) = blocksOf m ++
      (List.range' (m.length / 64) ((m.length + x.length) / 64 - m.length / 64)).map (blockAt (m ++ x)) := by
  unfold blocksOf
  have parts : (m.length + x.length) / 64 = m.length / 64 + ((m.length + x.length) / 64 - m.length / 64) := by omega
  conv_lhs => rw [List.length_append, parts, List.range_eq_range', ← List.range'_append_1, List.map_append]
  refine congrArg₂ (· ++ ·) ?_ (by simp)
  rw [← List.range_eq_range']
  apply List.map_congr_left
  intro i below
  simp at below
  exact blockAt_append _ _ _ (by omega)

theorem paddedMessage_length (m : List Byte) :
    (paddedMessage m).length = m.length + 9 + (119 - m.length % 64) % 64 := by
  simp [paddedMessage, padding]
  omega

/-- The bytes of the padding: the marker, the zeros, then the length field. -/
theorem padding_getD (n j : Nat) :
    (padding n).getD j 0 =
      if j = 0 then 0x80
      else if j ≤ (119 - n % 64) % 64 then 0
      else (bytesBE64 (BitVec.ofNat 64 (8 * n))).toList.getD (j - 1 - (119 - n % 64) % 64) 0 := by
  unfold padding
  generalize (119 - n % 64) % 64 = zeros
  generalize (bytesBE64 (BitVec.ofNat 64 (8 * n))).toList = field
  cases j with
  | zero => simp
  | succ j =>
    simp only [List.cons_append, List.getD_cons_succ]
    by_cases inside : j < zeros
    · rw [List.getD_append _ _ _ _ (by simpa using inside)]
      simp [List.getD, inside, show j + 1 ≤ zeros by omega]
    · rw [List.getD_append_right _ _ _ _ (by simp; omega)]
      simp [show ¬j + 1 ≤ zeros by omega]

/-- A byte of the padded message past the message is a byte of the padding. -/
theorem paddedMessage_getD (m : List Byte) (j : Nat) (past : m.length ≤ j) :
    (paddedMessage m).getD j 0 = (padding m.length).getD (j - m.length) 0 :=
  List.getD_append_right _ _ _ _ past

/-- The blocks of the padded message are the whole blocks of the message and then what FINALIZE makes of its remainder
`r`. -/
theorem blocksOf_paddedMessage (m r : List Byte) (len : r.length = m.length % 64)
    (tail : ∀ i, i < r.length → r.getD i 0 = m.getD (64 * (m.length / 64) + i) 0) :
    blocksOf (paddedMessage m) = blocksOf m ++ finalBlocks r (BitVec.ofNat 64 (8 * m.length)) := by
  have total := paddedMessage_length m
  have grown := blocksOf_append m (padding m.length)
  have sum : m.length + (padding m.length).length = (paddedMessage m).length := by simp [paddedMessage]
  rw [show m ++ padding m.length = paddedMessage m from rfl, sum] at grown
  rw [grown]
  refine congrArg _ ?_
  unfold finalBlocks
  split
  next small =>
    rw [show (paddedMessage m).length / 64 - m.length / 64 = 1 by omega]
    simp only [List.range'_one, List.map_cons, List.map_nil, List.cons.injEq, and_true]
    apply Vector.ext
    intro j below
    simp only [blockAt, Vector.getElem_ofFn, oneBlock]
    by_cases inR : j < r.length
    · rw [if_pos (by omega), markedByte, if_pos inR, tail j inR, paddedMessage, List.getD_append _ _ _ _ (by omega)]
    rw [paddedMessage_getD _ _ (by omega), padding_getD, show (119 - m.length % 64) % 64 = 55 - r.length by omega,
      show 64 * (m.length / 64) + j - m.length = j - r.length by omega]
    simp only [markedByte, lengthFieldByte, inR, if_false]
    by_cases before : j < 56
    · rw [if_pos before]
      by_cases mark : j = r.length
      · rw [if_pos (by omega), if_pos mark]
      · rw [if_neg (by omega), if_pos (by omega), if_neg mark]
    · rw [if_neg (by omega), if_neg (by omega), if_neg before]
      congr 1; omega
  next large =>
    rw [show (paddedMessage m).length / 64 - m.length / 64 = 2 by omega]
    have zeros : (119 - m.length % 64) % 64 = 119 - r.length := by omega
    refine congrArg₂ (fun p q => [p, q]) ?_ ?_
    · apply Vector.ext
      intro j below
      simp only [blockAt, Vector.getElem_ofFn, markerBlock]
      by_cases inR : j < r.length
      · rw [markedByte, if_pos inR, tail j inR, paddedMessage, List.getD_append _ _ _ _ (by omega)]
      rw [paddedMessage_getD _ _ (by omega), padding_getD, zeros,
        show 64 * (m.length / 64) + j - m.length = j - r.length by omega]
      simp only [markedByte, inR, if_false]
      by_cases mark : j = r.length
      · rw [if_pos (by omega), if_pos mark]
      · rw [if_neg (by omega), if_pos (by omega), if_neg mark]
    · apply Vector.ext
      intro j below
      simp only [blockAt, Vector.getElem_ofFn, lengthBlock]
      rw [paddedMessage_getD _ _ (by omega), padding_getD, zeros,
        show 64 * (m.length / 64 + 1) + j - m.length = j + 64 - r.length by omega]
      simp only [lengthFieldByte]
      by_cases before : j < 56
      · rw [if_neg (by omega), if_pos (by omega), if_pos before]
      · rw [if_neg (by omega), if_neg (by omega), if_neg before]
        congr 1; omega

/-! ### The HashState of a message in progress (10_state.md R21, R23) -/

/-- While a message is in progress FINALIZE can read its remainder. -/
theorem Live.readPrefix {s : State} (live : Live s) {n : BitVec 6} (len : s.bufLen = some n) :
    ∃ r, Sys2Proof.Machine.readPrefix s.buf n.toNat = some r := by
  obtain ⟨n', -, len', -, -, -, filled⟩ := live.counted
  obtain rfl : n = n' := by simpa [len] using len'
  have small := n.isLt
  refine ⟨(List.range n.toNat).map fun i => if inside : i < 64 then (s.buf[i]).getD 0 else 0, ?_⟩
  rw [readPrefix_eq_some (by omega)]
  refine ⟨by simp, fun i below => ?_⟩
  obtain ⟨x, holds⟩ := Option.ne_none_iff_exists'.mp (filled i below)
  have holds' : s.buf[i.val] = some x := holds
  simp [List.getD, below, holds']

/-- While a message is in progress UPDATE of the 64th byte can read the whole buffer. -/
theorem Live.readBlock {s : State} (live : Live s) (b : Byte) (len : s.bufLen = some 63) :
    ∃ blk, Sys2Proof.Machine.readBlock (writeByte s.buf 63 b) = some blk := by
  obtain ⟨n', -, len', -, -, -, filled⟩ := live.counted
  obtain rfl : (63 : BitVec 6) = n' := by simpa [len] using len'
  refine ⟨Vector.ofFn fun i : Fin 64 => ((writeByte s.buf 63 b)[i]).getD 0, ?_⟩
  rw [readBlock_eq_some_bytes]
  intro i
  have present : (writeByte s.buf 63 b)[i] ≠ none := by
    by_cases last : i.val = 63
    · obtain rfl : i = 63 := Fin.ext last
      have same : (writeByte s.buf 63 b)[(63 : Fin 64)] = some b := writeByte_same s.buf 63 b
      rw [same]
      exact Option.some_ne_none b
    · rw [writeByte_other _ _ _ _ last]
      exact filled i (by have := i.isLt; change i.val < 63; omega)
  obtain ⟨x, holds⟩ := Option.ne_none_iff_exists'.mp present
  simp only [Fin.getElem_fin, Vector.getElem_ofFn] at holds ⊢
  rw [holds]; rfl

end Sys2Proof.Machine
end

