-- ==== Sys2Proof/Laws/PerInstr.lean ====
section
/-! SUPPORT. Statements about every command, one lemma a constructor. -/

namespace Sys2Proof.Laws.LegalWord

/-- The word of a command is one of the legal words (30_encoding.md R63). -/
def Statement (i : Instr) : Prop := legalWord (encode i) = true

theorem init : Statement .init := by unfold Statement; decide

theorem update (b : Byte) : Statement (.update b) := by
  have high := opField_toNat (encode (.update b))
  rw [encode, opField_append] at high
  have high' : 2 = ((0x02#8 : Byte) ++ b).toNat / 256 := high
  have lower : 0x0200 ≤ ((0x02#8 : Byte) ++ b).toNat := by omega
  have upper : ((0x02#8 : Byte) ++ b).toNat ≤ 0x02FF := by omega
  rw [Statement, encode, legalWord, decide_eq_true lower, decide_eq_true upper]
  simp only [Bool.and_self, Bool.or_true, Bool.true_or]

theorem finalize : Statement .finalize := by unfold Statement; decide

end Sys2Proof.Laws.LegalWord
end

