-- ==== Sys2Proof/Laws/Step.lean ====
section
/-! SUPPORT. What a step can do, said once (60_exceptions.md R151, 70_reset_and_hazards.md R170, 20_memory.md R46). -/

namespace Sys2Proof.Machine

/-- Each command's meaning is its outcome relation's. -/
theorem exec_next_iff {i : Instr} {s t : State} :
    exec i s = .next t ↔
      match i with
      | .init => InitOutcome s t
      | .update b => UpdateOutcome b s t
      | .finalize => FinalizeOutcome s t := by
  cases i
  · exact execInit_next_iff
  · exact execUpdate_next_iff
  · exact execFinalize_next_iff

/-- In the faulted phase every command is rejected (60_exceptions.md R152). -/
theorem exec_of_faulted (i : Instr) {s : State} (p : s.phase = .faulted) : exec i s = .next s.reject := by
  cases i
  · exact execInit_next_iff.mpr (.rejected p)
  · exact execUpdate_next_iff.mpr (.rejected p)
  · exact execFinalize_next_iff.mpr (.rejected p)

theorem step_of_nothing {s : State} (given : s.host = []) : step s = .next s := by
  simp [step, takeAction, given]

theorem step_of_action {s : State} {a : HostAction} {rest : List HostAction} (given : s.host = a :: rest) :
    step s = performAction a { s with host := rest } := by
  simp [step, takeAction, given]

theorem performAction_command (w : CmdWord) (s : State) : performAction (.command w) s = performCommand w s := rfl

theorem performAction_reset (s : State) : performAction .reset s = .next s.hostReset := rfl

theorem performAction_sampleStatus (s : State) : performAction .sampleStatus s = .next s.sample := rfl

/-- The next states of the command word `w`. -/
inductive CommandOutcome (w : CmdWord) (s : State) : State → Prop where
  | rejected (p : s.phase = .faulted) : CommandOutcome w s s.reject
  | illegal (p : s.phase ≠ .faulted) (d : decode w = .illegal) :
      CommandOutcome w s (s.raiseUsageFault .illegalCommand)
  | performed (i : Instr) (t : State) (p : s.phase ≠ .faulted) (d : decode w = .instr i) (run : exec i s = .next t) :
      CommandOutcome w s t

theorem performCommand_next_iff {w : CmdWord} {s t : State} :
    performCommand w s = .next t ↔ CommandOutcome w s t := by
  constructor
  · intro run
    unfold performCommand at run
    split at run
    next p =>
      cases run
      exact .rejected p
    next p =>
      split at run
      next d =>
        cases run
        exact .illegal p d
      next i d => exact .performed i t p d run
  · rintro (p | ⟨p, d⟩ | ⟨i, _, p, d, run⟩)
    · simp [performCommand, p]
    · simp [performCommand, p, d]
    · simp [performCommand, p, d, run]

/-- The next states of a step. -/
inductive StepOutcome (s : State) : State → Prop where
  | waited (given : s.host = []) : StepOutcome s s
  | reset (rest : List HostAction) (given : s.host = .reset :: rest) :
      StepOutcome s (State.hostReset { s with host := rest })
  | sampled (rest : List HostAction) (given : s.host = .sampleStatus :: rest) :
      StepOutcome s (State.sample { s with host := rest })
  | commanded (w : CmdWord) (rest : List HostAction) (t : State) (given : s.host = .command w :: rest)
      (outcome : CommandOutcome w { s with host := rest } t) : StepOutcome s t

theorem step_next_iff {s t : State} : step s = .next t ↔ StepOutcome s t := by
  constructor
  · intro run
    cases given : s.host with
    | nil =>
      rw [step_of_nothing given] at run
      cases run
      exact .waited given
    | cons a rest =>
      rw [step_of_action given] at run
      cases a with
      | command w => exact .commanded w rest t given (performCommand_next_iff.mp run)
      | reset =>
        cases run
        exact .reset rest given
      | sampleStatus =>
        cases run
        exact .sampled rest given
  · intro outcome
    cases outcome with
    | waited given => exact step_of_nothing given
    | reset rest given => rw [step_of_action given, performAction_reset]
    | sampled rest given => rw [step_of_action given, performAction_sampleStatus]
    | commanded w rest t given outcome =>
      rw [step_of_action given, performAction_command]
      exact performCommand_next_iff.mpr outcome

/-! ### Runs -/

@[simp] theorem run_zero (s : State) : run 0 s = .next s := rfl

/-- A run of one step more: the first step, then the rest. -/
theorem run_succ {n : Nat} {s t : State} (first : step s = .next t) : run (n + 1) s = run n t := by
  have first' : Sys2Proof.core.step s = .next t := first
  simp only [run, Host.Core.run, first']
  rfl

/-- A run of one step more that ends in a next state has a first step that does. -/
theorem run_succ_next {n : Nat} {s u : State} (whole : run (n + 1) s = .next u) :
    ∃ t, step s = .next t ∧ run n t = .next u := by
  cases first : step s with
  | next t => exact ⟨t, rfl, by rw [← run_succ first, whole]⟩
  | fault f => cases f
  | refused r =>
    have first' : Sys2Proof.core.step s = .refused r := first
    simp [run, Host.Core.run, first'] at whole

/-- A run is a shorter run followed by another. -/
theorem run_add {m n : Nat} {s t : State} (first : run m s = .next t) : run (m + n) s = run n t := by
  induction m generalizing s with
  | zero => cases first; simp
  | succ m ih =>
    obtain ⟨u, one, more⟩ := run_succ_next first
    rw [Nat.add_right_comm, run_succ one, ih more]

end Sys2Proof.Machine
end

