-- ==== Sys2Proof/Tests/Slice0.lean ====
section
/-! SUPPORT. The model's own tests: ill-formed terms, decoding of words written out from the encoding table, a few single
steps with the results 95_test_vectors.md gives, and for each statement with hypotheses a state that meets them. -/

namespace Sys2Proof.Tests
open Sys2Proof.Machine

/-! ## Ill-formed terms (30_encoding.md R62, R63, R66) -/

theorem test_wf_refuses_words :
    legalWord 0x0000 = false ∧ legalWord 0x00FF = false ∧ legalWord 0x0101 = false ∧ legalWord 0x01FF = false ∧
    legalWord 0x0301 = false ∧ legalWord 0x03FF = false ∧ legalWord 0x0400 = false ∧ legalWord 0xFFFF = false := by
  decide

theorem test_wf_admits_words :
    legalWord 0x0100 = true ∧ legalWord 0x0200 = true ∧ legalWord 0x02FF = true ∧ legalWord 0x0300 = true := by decide

theorem test_wf_refuses_lines :
    AsmLine.wf (.update 256) = false ∧ AsmLine.wf (.word 65536) = false ∧
    AsmLine.wf (.updateBytes [0, 255, 256]) = false := by decide

theorem test_wf_admits_lines :
    AsmLine.wf (.update 255) = true ∧ AsmLine.wf (.word 65535) = true ∧ AsmLine.wf (.updateBytes []) = true ∧
    Instr.wf .init = true ∧ Instr.wf (.update 0xFF) = true ∧ Instr.wf .finalize = true := by decide

/-! ## Decoding: words written out from 30_encoding.md R60 and R61, and the table of 95_test_vectors.md 2.8 -/

theorem test_decode_init : decode 0b0000000100000000 = .instr .init := by decide
theorem test_decode_update : decode 0b0000001001100001 = .instr (.update 0x61) := by decide
theorem test_decode_update_zero : decode 0b0000001000000000 = .instr (.update 0x00) := by decide
theorem test_decode_finalize : decode 0b0000001100000000 = .instr .finalize := by decide

theorem test_decode_illegal :
    decode 0x0000 = .illegal ∧ decode 0x0001 = .illegal ∧ decode 0x0101 = .illegal ∧ decode 0x01FF = .illegal ∧
    decode 0x0380 = .illegal ∧ decode 0x0400 = .illegal ∧ decode 0xFF00 = .illegal ∧ decode 0xFFFF = .illegal := by
  decide

theorem test_decodeTableWord :
    decodeTableWord 16 0x0100 = some .init ∧ decodeTableWord 16 0x02FF = some (.update 0xFF) ∧
    decodeTableWord 16 0x0300 = some .finalize ∧ decodeTableWord 16 0x0301 = none := by decide

/-! ## The assembler (30_encoding.md R66, R67) -/

theorem test_line_update :
    readLine "UPDATE 0x61 ; one byte".toList = some (some (.update 97)) ∧
    readLine "UPDATE 97".toList = some (some (.update 97)) ∧
    readLine "UPDATE 'a'".toList = some (some (.update 97)) := by decide +kernel

theorem test_line_bytes :
    readLine "UPDATE.BYTES \"abc\"".toList = some (some (.updateBytes [97, 98, 99])) ∧
    readLine "UPDATE.BYTES 0x61, 98, 'c'".toList = some (some (.updateBytes [97, 98, 99])) := by decide +kernel

theorem test_line_others :
    readLine "INIT".toList = some (some .init) ∧ readLine "FINALIZE ; end".toList = some (some .finalize) ∧
    readLine "RESET".toList = some (some .reset) ∧ readLine ".WORD 0x0101".toList = some (some (.word 257)) ∧
    readLine "; only a comment".toList = some none ∧ readLine "HALT".toList = none := by decide +kernel

/-! ## Word functions and Compress (95_test_vectors.md 2.1 and 2.3) -/

theorem test_word_functions :
    bigSigma0 0x12345678 = 0x66146474 ∧ bigSigma1 0x12345678 = 0x3561abda ∧
    smallSigma0 0x12345678 = 0xe7fce6ee ∧ smallSigma1 0x12345678 = 0xa1f78649 ∧
    ch 0x510e527f 0x9b05688c 0x1f83d9ab = 0x1f85c98c ∧ maj 0x6a09e667 0xbb67ae85 0x3c6ef372 = 0x3a6fe667 ∧
    rotr 0x00000001 1 = 0x80000000 ∧ rotr 0x80000000 31 = 0x00000001 := by decide

theorem test_compress_all_ones :
    compress iv (Vector.replicate 64 0xFF) =
      #v[0xef0c748d, 0xf4da50a8, 0xd6c43c01, 0x3edc3ce7, 0x6c9d9fa9, 0xa1458ade, 0x56eb86c0, 0xa64492d2] := by
  decide +kernel

/-! ## Single steps (95_test_vectors.md 2.5 and 2.6) -/

/-- A message in progress: `len` bytes of BUF are `byte`, TOTAL_BITS is `total`, H is IV. -/
def inMessage (byte : Byte) (len : Nat) (total : BitCount) : State :=
  { State.reset with
    h := some iv
    buf := Vector.ofFn fun i => if i.val < len then some byte else none
    bufLen := some (BitVec.ofNat 6 len)
    totalBits := some total
    phase := .active }

/-- An engine that has finalized a message. -/
def finished : State := { State.reset with h := some iv, phase := .done }

/-- An engine with the fault `code`. -/
def faultedWith (code : FaultCode) : State := { State.reset with phase := .faulted, faultCode := code }

/-- What the host received last, and the state, when the word `w` is taken next. -/
def after (w : CmdWord) (s : State) : Option (Output × State) :=
  match step (s.present w) with
  | .next t => t.out.getLast?.map fun o => (o, t)
  | _ => none

/-- U1: INIT after reset. -/
theorem test_init_after_reset :
    (after 0x0100 State.reset).map (fun p => (p.1, p.2.h, p.2.bufLen, p.2.totalBits)) =
      some (.response ⟨true, 0x01, none⟩, some iv, some 0, some 0) := by decide

/-- U12: INIT in an engine that faulted with code 3 is rejected. -/
theorem test_init_rejected :
    (after 0x0100 (faultedWith .afterFinalize)).map (fun p => (p.1, p.2.h, p.2.phase, p.2.faultCode)) =
      some (.response ⟨false, 0x33, none⟩, none, .faulted, .afterFinalize) := by decide

/-- U6: the 64th byte of 64 × 0x61 runs Compress. -/
theorem test_update_drains :
    (after 0x0261 (inMessage 0x61 63 504)).map (fun p => (p.1, p.2.h, p.2.bufLen, p.2.totalBits)) =
      some (.response ⟨true, 0x01, none⟩,
        some #v[0xdf5bb81c, 0xe81e0626, 0xfb45a894, 0x4fd40f31, 0xb25e6816, 0xd6d499c1, 0xab904929, 0x00635e66],
        some 0, some 512) := by decide +kernel

/-- U10 and U11: the last byte that fits the bit counter, and the first that does not. -/
theorem test_update_at_the_limit :
    (after 0x0241 (inMessage 0x61 62 0xFFFFFFFFFFFFFFF0)).map (fun p => (p.1, p.2.bufLen, p.2.totalBits)) =
      some (.response ⟨true, 0x01, none⟩, some 63, some 0xFFFFFFFFFFFFFFF8) ∧
    (after 0x0242 (inMessage 0x61 63 0xFFFFFFFFFFFFFFF8)).map (fun p => (p.1, p.2.bufLen, p.2.totalBits)) =
      some (.response ⟨false, 0x43, none⟩, some 63, some 0xFFFFFFFFFFFFFFF8) := by decide

/-- FINALIZE of the empty message (W1): H holds the words of its digest. -/
theorem test_finalize_empty :
    (after 0x0300 (inMessage 0x00 0 0)).map (fun p => (p.2.h, p.2.bufLen, p.2.totalBits, p.2.status)) =
      some (some #v[0xe3b0c442, 0x98fc1c14, 0x9afbf4c8, 0x996fb924, 0x27ae41e4, 0x649b934c, 0xa495991b, 0x7852b855],
        none, none, 0x02) := by decide +kernel

/-- FINALIZE with two padded blocks: 63 bytes 0x00 in BUF and TOTAL_BITS = 2^64 - 8; the response carries the digest. -/
theorem test_finalize_two_blocks :
    (after 0x0300 (inMessage 0x00 63 0xFFFFFFFFFFFFFFF8)).map (fun p => p.1) =
      some (.response ⟨true, 0x02, some #v[
        0xfd, 0x4b, 0x18, 0x7d, 0x97, 0x8e, 0x53, 0xac, 0x38, 0xa3, 0xe4, 0xca, 0x1c, 0xdb, 0x55, 0x8d,
        0x9f, 0xef, 0xb1, 0xf7, 0x5c, 0xe0, 0x0a, 0x7f, 0xc5, 0xf3, 0xed, 0x69, 0x78, 0x23, 0xab, 0x38]⟩) := by
  decide +kernel

/-- L3-7: an illegal word in a message, and U8: UPDATE before INIT. -/
theorem test_faults :
    (after 0x0101 (inMessage 0x61 1 8)).map (fun p => (p.1, p.2.bufLen, p.2.faultCode)) =
      some (.response ⟨false, 0x13, none⟩, some 1, .illegalCommand) ∧
    (after 0x0261 State.reset).map (fun p => (p.1, p.2.faultCode)) =
      some (.response ⟨false, 0x23, none⟩, .notInitialized) ∧
    (after 0x0300 finished).map (fun p => (p.1, p.2.faultCode)) =
      some (.response ⟨false, 0x33, none⟩, .afterFinalize) := by decide

/-- The first step after reset runs the word withFetchWord places. -/
theorem test_withFetchWord :
    step (State.reset.withFetchWord 16 0x0100) = exec .init State.reset ∧
    step (State.reset.withFetchWord 16 0x0261) = exec (.update 0x61) State.reset ∧
    step (State.reset.withFetchWord 16 0x0300) = exec .finalize State.reset := ⟨rfl, rfl, rfl⟩

/-! ## States that meet the hypotheses of the statements -/

/-- Reset has a state to start from, and an INIT or another command may follow (HostResetFromEveryState). -/
theorem witness_HostResetFromEveryState :
    (∃ s : State, s.host = .reset :: [.command (encode .finalize)] ∧ Instr.finalize ≠ .init) ∧
    (∃ s t : State, s.phase = .faulted ∧ s.host = .reset :: [] ∧ step s = .next t ∧ t.phase ≠ .faulted) :=
  ⟨⟨{ State.reset with host := [.reset, .command (encode .finalize)] }, rfl, by decide⟩,
    { faultedWith .afterFinalize with host := [.reset] }, State.reset, rfl, rfl, rfl, by decide⟩

theorem witness_StatusSampleHasNoSideEffect : ∃ s : State, s.host = .sampleStatus :: [] :=
  ⟨{ State.reset with host := [.sampleStatus] }, rfl⟩

theorem witness_QuiescentEngineIsUnchanged : ∃ s : State, s.host = [] := ⟨State.reset, rfl⟩

/-- A command that is performed, with and without a digest (EveryCommandGetsOneResponse, ActionsAreTakenInOrder). -/
theorem witness_EveryCommandGetsOneResponse :
    (∃ s t : State, s.host = .command 0x0100 :: [] ∧ step s = .next t) ∧
    (∃ s t : State, s.host = .command 0x0300 :: [] ∧ step s = .next t ∧ t.phase ≠ .faulted) ∧
    (∃ s t : State, run 1 s = .next t ∧ s.host = [.command 0x0100]) :=
  ⟨⟨State.reset.present 0x0100, _, rfl, rfl⟩,
    ⟨(inMessage 0x61 0 0).present 0x0300, _, rfl, rfl, by decide⟩,
    ⟨State.reset.present 0x0100, _, rfl, rfl⟩⟩

/-- An illegal word in an engine without a fault (IllegalWordsAreThoseListed). -/
theorem witness_IllegalWordsAreThoseListed :
    ∃ s : State, s.host = .command 0x03FF :: [] ∧ decode 0x03FF = .illegal ∧ s.phase ≠ .faulted :=
  ⟨State.reset.present 0x03FF, rfl, by decide, by decide⟩

theorem witness_StepRunsTheDecodedCommand :
    ∃ s : State, s.host = .command 0x02FF :: [] ∧ decode 0x02FF = .instr (.update 0xFF) :=
  ⟨State.reset.present 0x02FF, rfl, by decide⟩

/-- Numbers at both ends of the ranges of a byte and of a word (AssembledLines), and pieces of a message, one of them
empty (PiecesAssembleAsTheWhole). -/
theorem witness_AssembledLines :
    (0 < 256 ∧ 255 < 256 ∧ 256 ≤ 256) ∧ (0 < 65536 ∧ 65535 < 65536 ∧ 65536 ≤ 65536) ∧
    (∀ p ∈ [[97, 255], [], [0]], ∀ v ∈ p, v < 256) := by decide

/-- Both ends of the rotation amounts and of the bit, round, prime and schedule indexes (RotateRightBits,
SigmaFunctions, ChooseAndMajority, ConstantsAreRootFractions, CompressIsSixtyFourRounds, ScheduleWords). -/
theorem witness_index_ranges :
    (1 ≤ 1 ∧ 1 ≤ 31 ∧ 31 ≤ 31) ∧ (0 < 32 ∧ 31 < 32) ∧ (0 < 64 ∧ 63 < 64) ∧ (16 ≤ 16 ∧ 16 ≤ 63 ∧ 63 < 64) := by
  decide

/-- A block that begins 61 62 63 80 (ScheduleWords). -/
theorem witness_ScheduleWords :
    ∃ blk : Block, blk[0] = 0x61 ∧ blk[1] = 0x62 ∧ blk[2] = 0x63 ∧ blk[3] = 0x80 :=
  ⟨Vector.ofFn fun i => if i.val = 0 then 0x61 else if i.val = 1 then 0x62 else if i.val = 2 then 0x63 else 0x80,
    by decide, by decide, by decide, by decide⟩

/-- Each phase in which INIT runs, and both ends of the nonzero DATA bytes (InitStartsAMessage,
FinalizeEndsTheMessage, UpdatesAbsorbTheMessage). -/
theorem witness_InitStartsAMessage :
    State.reset.phase ≠ .faulted ∧ (inMessage 0x61 3 24).phase ≠ .faulted ∧ finished.phase ≠ .faulted ∧
    (0x01 : Byte) ≠ 0 ∧ (0xFF : Byte) ≠ 0 := by decide

/-- BUF_LEN 0 and 62, the ends of the range below the 64th byte, and the largest TOTAL_BITS that takes a byte
(UpdateAddsOneByte). -/
theorem witness_UpdateAddsOneByte_append :
    (∃ s : State, s.phase = .active ∧ s.bufLen = some 0 ∧ s.totalBits = some 0 ∧ (0 : BitVec 6) ≠ 63 ∧
      (0 : BitCount) ≠ 0xFFFFFFFFFFFFFFF8) ∧
    (∃ s : State, s.phase = .active ∧ s.bufLen = some 62 ∧ s.totalBits = some 0xFFFFFFFFFFFFFFF0 ∧
      (62 : BitVec 6) ≠ 63 ∧ (0xFFFFFFFFFFFFFFF0 : BitCount) ≠ 0xFFFFFFFFFFFFFFF8) :=
  ⟨⟨inMessage 0x61 0 0, rfl, rfl, rfl, by decide, by decide⟩,
    ⟨inMessage 0x61 62 0xFFFFFFFFFFFFFFF0, rfl, rfl, rfl, by decide, by decide⟩⟩

/-- The 64th byte of a block (UpdateAddsOneByte). -/
theorem witness_UpdateAddsOneByte_drain :
    ∃ (s : State) (l : BitCount) (x : HashWords) (blk : Block),
      s.phase = .active ∧ s.bufLen = some 63 ∧ s.totalBits = some l ∧ l ≠ 0xFFFFFFFFFFFFFFF8 ∧ s.h = some x ∧
      (∀ i : Fin 64, i.val < 63 → s.buf[i] = some blk[i]) ∧ blk[63] = 0x61 :=
  ⟨inMessage 0x61 63 504, 504, iv, Vector.replicate 64 0x61, rfl, rfl, rfl, by decide, rfl, by decide, by decide⟩

/-- The engine that has taken in `m`, said as the spec's rules give it. -/
def absorbing (m : List Byte) : State :=
  { State.reset with
    h := some ((blocksOf m).foldl compress iv)
    buf := Vector.ofFn fun j =>
      if j.val < m.length % 64 then some (m.getD (64 * (m.length / 64) + j.val) 0) else none
    bufLen := some (BitVec.ofNat 6 (m.length % 64))
    totalBits := some (BitVec.ofNat 64 (8 * m.length))
    phase := .active }

theorem absorbed_absorbing (m : List Byte) : Absorbed m (absorbing m) where
  phase := rfl
  h := rfl
  bufLen := rfl
  totalBits := rfl
  buf := fun j below => by simp [absorbing, below]

/-- There are messages of every length. -/
theorem exists_message (n : Nat) : ∃ m : List Byte, m.length = n := ⟨List.replicate n 0, List.length_replicate⟩

/-- The empty message and the longest one (LengthOverflowGuard, UpdatesAbsorbTheMessage,
FinalizeAnswersTheMessageDigest). -/
theorem witness_absorbed :
    (∃ s : State, Absorbed [] s ∧ ([] : List Byte).length + 1 < 2 ^ 61) ∧
    (∃ (m : List Byte) (s : State), Absorbed m s ∧ m.length < 2 ^ 61 ∧ m.length + 1 = 2 ^ 61) := by
  obtain ⟨m, longest⟩ := exists_message (2 ^ 61 - 1)
  exact ⟨⟨absorbing [], absorbed_absorbing [], by decide⟩, m, _, absorbed_absorbing m, by omega, by omega⟩

/-- Both sides of the guard: TOTAL_BITS = 2^64 - 8 and the multiple of 8 below it (LengthOverflowGuard). -/
theorem witness_LengthOverflowGuard :
    (0xFFFFFFFFFFFFFFF8 : BitCount).toNat % 8 = 0 ∧
    (∃ s : State, s.phase = .active ∧ s.totalBits = some 0xFFFFFFFFFFFFFFF8) ∧
    (∃ s t : State, s.phase = .active ∧ s.totalBits = some 0xFFFFFFFFFFFFFFF0 ∧
      (0xFFFFFFFFFFFFFFF0 : BitCount).toNat % 8 = 0 ∧ exec (.update 0x41) s = .next t ∧ t.phase ≠ .faulted) :=
  ⟨by decide, ⟨inMessage 0x61 63 0xFFFFFFFFFFFFFFF8, rfl, rfl⟩,
    ⟨inMessage 0x61 62 0xFFFFFFFFFFFFFFF0, _, rfl, rfl, by decide, rfl, by decide⟩⟩

/-- Remainders of 0, 55, 56 and 63 bytes (FinalizeEndsTheMessage, FinalBlockBytes). -/
theorem witness_FinalizeEndsTheMessage :
    ∀ n ∈ [0, 55, 56, 63], ∃ (s : State) (r : List Byte),
      s.phase = .active ∧ s.bufLen = some (BitVec.ofNat 6 n) ∧ s.totalBits = some 0 ∧ s.h = some iv ∧
      r.length = (BitVec.ofNat 6 n).toNat ∧ r.length = n ∧
      ∀ i : Fin 64, i.val < (BitVec.ofNat 6 n).toNat → s.buf[i] = some (r.getD i.val 0) := by
  intro n listed
  refine ⟨inMessage 0x61 n 0, List.replicate n 0x61, rfl, rfl, rfl, rfl, ?_, by simp, ?_⟩
  · fin_cases listed <;> decide
  · intro i below
    have small : (BitVec.ofNat 6 n).toNat = n := by fin_cases listed <;> rfl
    rw [small] at below
    simp [inMessage, below]

/-- An engine before INIT and one after FINALIZE (UpdateAddsOneByte, FinalizeEndsTheMessage). -/
theorem witness_phases_outside_a_message : State.reset.phase = .idle ∧ finished.phase = .done := by decide

/-- Each condition of the checking order holds somewhere when those before it do not (CheckingOrder,
FaultsArePrecise). -/
theorem witness_CheckingOrder :
    (∃ s : State, s.host = .command 0x0000 :: [] ∧ s.phase = .faulted) ∧
    (∃ s : State, s.host = .command 0x0000 :: [] ∧ s.phase ≠ .faulted ∧ decode 0x0000 = .illegal) ∧
    (∃ s : State, s.host = .command 0x0300 :: [] ∧ decode 0x0300 = .instr .finalize ∧ Instr.finalize ≠ .init ∧
      s.phase = .idle) ∧
    (∃ s : State, s.host = .command 0x0261 :: [] ∧ decode 0x0261 = .instr (.update 0x61) ∧
      Instr.update 0x61 ≠ .init ∧ s.phase = .done) ∧
    (∃ s : State, s.host = .command 0x0261 :: [] ∧ decode 0x0261 = .instr (.update 0x61) ∧ s.phase = .active ∧
      s.totalBits = some 0xFFFFFFFFFFFFFFF8) ∧
    (∃ s t : State, s.phase ≠ .faulted ∧ s.host = .command 0x0261 :: [] ∧ step s = .next t ∧ t.phase = .faulted) ∧
    (∃ s : State, s.host = .command 0x0100 :: [] ∧ decode 0x0100 = .instr .init ∧ s.phase = .done) ∧
    (∃ s : State, s.host = .command 0x0261 :: [] ∧ decode 0x0261 = .instr (.update 0x61) ∧ s.phase = .active ∧
      s.totalBits = some 0xFFFFFFFFFFFFFFF0 ∧ s.totalBits ≠ some 0xFFFFFFFFFFFFFFF8) ∧
    (∃ s : State, s.host = .command 0x0300 :: [] ∧ decode 0x0300 = .instr .finalize ∧ s.phase = .active ∧
      s.totalBits = some 0xFFFFFFFFFFFFFFF8) :=
  ⟨⟨(faultedWith .afterFinalize).present 0, rfl, rfl⟩, ⟨State.reset.present 0, rfl, by decide, by decide⟩,
    ⟨State.reset.present 0x0300, rfl, by decide, by decide, rfl⟩,
    ⟨finished.present 0x0261, rfl, by decide, by decide, rfl⟩,
    ⟨(inMessage 0x61 63 0xFFFFFFFFFFFFFFF8).present 0x0261, rfl, by decide, rfl, rfl⟩,
    ⟨State.reset.present 0x0261, _, by decide, rfl, rfl, by decide⟩,
    ⟨finished.present 0x0100, rfl, by decide, rfl⟩,
    ⟨(inMessage 0x61 62 0xFFFFFFFFFFFFFFF0).present 0x0261, rfl, by decide, rfl, rfl, by decide⟩,
    ⟨(inMessage 0x61 63 0xFFFFFFFFFFFFFFF8).present 0x0300, rfl, by decide, rfl, rfl⟩⟩

/-- The invariant holds in a state of each phase, with a command to take (FaultCausesAndCodes, EveryStepKeepsEngineInv,
NoStepReadsAValuelessElement). -/
theorem witness_EngineInv :
    (∃ s t : State, EngineInv s ∧ s.phase = .idle ∧ s.host = .command 0x0100 :: [] ∧ step s = .next t) ∧
    (∃ s t : State, EngineInv s ∧ s.phase = .active ∧ s.host = .command 0x0261 :: [] ∧ step s = .next t) ∧
    (∃ s t : State, EngineInv s ∧ s.phase = .done ∧ s.host = .command 0x0300 :: [] ∧ step s = .next t) ∧
    (∃ s t : State, EngineInv s ∧ s.phase = .faulted ∧ s.host = .command 0x0100 :: [] ∧ step s = .next t) := by
  refine ⟨⟨State.reset.present 0x0100, _, ⟨by decide, fun _ => ⟨rfl, rfl, rfl, rfl⟩, ?_, ?_⟩, rfl, rfl, rfl⟩,
    ⟨(inMessage 0x61 62 496).present 0x0261, _, ⟨by decide, ?_, fun _ => ⟨?_, 62, 496, rfl, rfl, ?_, ?_, ?_⟩, ?_⟩,
      rfl, rfl, rfl⟩,
    ⟨finished.present 0x0300, _, ⟨by decide, ?_, ?_, fun _ => ⟨?_, rfl, rfl, rfl⟩⟩, rfl, rfl, rfl⟩,
    ⟨(faultedWith .afterFinalize).present 0x0100, _, ⟨by decide, ?_, ?_, ?_⟩, rfl, rfl, rfl⟩⟩
  all_goals first | decide | (intro p; cases p)

/-- A faulted engine with commands and samples to take and no reset among them (FaultedEngineRejects,
FaultsStayUntilReset). -/
theorem witness_FaultsStayUntilReset :
    ∃ s : State, s.phase = .faulted ∧ s.host = .command 0x0100 :: [.sampleStatus, .reset] ∧
      ∀ a ∈ s.host.take 2, a ≠ HostAction.reset :=
  ⟨{ faultedWith .afterFinalize with host := [.command 0x0100, .sampleStatus, .reset] }, rfl, rfl, by decide⟩

/-- A step that changes FAULT_CODE and PHASE (FaultCodeIsTheFirstFault, PhaseTransitions, AccessSummary). -/
theorem witness_PhaseTransitions :
    (∃ s t : State, step s = .next t ∧ t.faultCode ≠ s.faultCode ∧ t.phase ≠ s.phase ∧ t.phase = .faulted ∧
      s.host = [.command 0x0261]) ∧
    (∃ s t : State, step s = .next t ∧ t.phase ≠ s.phase ∧ t.phase = .active ∧ s.host = [.command 0x0100]) ∧
    (∃ s t : State, step s = .next t ∧ t.phase ≠ s.phase ∧ t.phase = .done ∧ s.host = [.command 0x0300]) ∧
    (∃ s t : State, step s = .next t ∧ t.phase ≠ s.phase ∧ t.phase = .idle ∧ s.phase = .faulted) ∧
    (∃ s t : State, step s = .next t ∧ t.phase ≠ .faulted ∧ s.host = [.command 0x0261]) :=
  ⟨⟨State.reset.present 0x0261, _, rfl, by decide, by decide, by decide, rfl⟩,
    ⟨State.reset.present 0x0100, _, rfl, by decide, by decide, rfl⟩,
    ⟨(inMessage 0x61 0 0).present 0x0300, _, rfl, by decide, by decide, rfl⟩,
    ⟨{ faultedWith .afterFinalize with host := [.reset] }, _, rfl, by decide, by decide, rfl⟩,
    ⟨(inMessage 0x61 0 0).present 0x0261, _, rfl, by decide, rfl⟩⟩

/-- A faulted engine that takes a command, and a run without a reset whose first command is performed, whose second faults
and whose third is rejected (FaultCodeIsTheFirstFault). -/
theorem witness_FaultCodeIsTheFirstFault :
    (∃ s t : State, s.phase = .faulted ∧ s.host = [.command 0x0100] ∧ step s = .next t) ∧
    (∃ s t : State, s.phase ≠ .faulted ∧ s.faultCode = .none ∧
      s.host = [.command 0x0100, .command 0x0000, .command 0x0300] ∧
      (∀ a ∈ s.host.take 3, a ≠ HostAction.reset) ∧ run 3 s = .next t ∧ t.phase = .faulted) :=
  ⟨⟨(faultedWith .afterFinalize).present 0x0100, _, rfl, rfl, rfl⟩,
    ⟨{ State.reset with host := [.command 0x0100, .command 0x0000, .command 0x0300] }, _, by decide, rfl, rfl,
      by decide, rfl, by decide⟩⟩

/-- A host's sequence for the message "abc" (MessageRunAnswersItsDigest). -/
theorem witness_MessageRunAnswersItsDigest :
    ∃ (m : List Byte) (s : State), m.length < 2 ^ 61 ∧ s.phase ≠ .faulted ∧ s.faultCode = .none ∧
      s.host = .command (encode .init) :: (m.map fun b => .command (encode (.update b))) ++
        .command (encode .finalize) :: [] :=
  ⟨[0x61, 0x62, 0x63],
    { State.reset with host := [.command 0x0100, .command 0x0261, .command 0x0262, .command 0x0263, .command 0x0300] },
    by decide, by decide, rfl, by decide⟩

/-- Two engines, each with a command to take (EnginesAreIndependent). -/
theorem witness_EnginesAreIndependent :
    ∃ p q q' : Platform 2, stepEngine 0 p = .next q ∧ stepEngine 1 p = .next q' ∧ (1 : Fin 2) ≠ 0 :=
  ⟨⟨#v[State.reset.present 0x0100, State.reset.present 0x0300]⟩, _, _, rfl, rfl, by decide⟩

/-- Each command performed (PerformedCommandsHaveATime). -/
theorem witness_PerformedCommandsHaveATime :
    (∃ s t : State, exec .init s = .next t ∧ t.phase ≠ .faulted) ∧
    (∃ s t : State, exec (.update 0x61) s = .next t ∧ t.phase ≠ .faulted) ∧
    (∃ s t : State, exec .finalize s = .next t ∧ t.phase ≠ .faulted) :=
  ⟨⟨State.reset, _, rfl, by decide⟩, ⟨inMessage 0x61 0 0, _, rfl, by decide⟩, ⟨inMessage 0x61 0 0, _, rfl, by decide⟩⟩

end Sys2Proof.Tests
end

section
/-! PROOFS. FAULT_CODE along a step and along a run (10_state.md R26). A step takes the host's first action; a step that is
no reset keeps the code, or is the command that raises the first fault; so a run without a reset has at most one fault. -/

namespace Sys2Proof.Machine

/-! ### The host's actions (20_memory.md R48) -/

/-- No command's meaning touches the actions still to come. -/
theorem exec_host {i : Instr} {s t : State} (run : exec i s = .next t) : t.host = s.host := by
  have outcome := exec_next_iff.mp run
  cases i with
  | init => cases outcome <;> simp
  | update b => cases outcome <;> simp
  | finalize => cases outcome <;> simp

theorem CommandOutcome.host_eq {w : CmdWord} {s t : State} (outcome : CommandOutcome w s t) : t.host = s.host := by
  cases outcome with
  | rejected _ => simp
  | illegal _ _ => simp
  | performed _ _ _ _ run => exact exec_host run

/-- A step takes the first action and leaves the rest. -/
theorem step_host {s t : State} (taken : step s = .next t) : t.host = s.host.tail := by
  cases step_next_iff.mp taken with
  | waited given => simp [given]
  | reset rest given => simp [given]
  | sampled rest given => simp [given]
  | commanded w rest t given outcome => simp [given, outcome.host_eq]

/-- None of the first `n` actions is a reset. -/
def NoReset (n : Nat) (actions : List HostAction) : Prop := ∀ a ∈ actions.take n, a ≠ HostAction.reset

theorem NoReset.head {n : Nat} {actions : List HostAction} (free : NoReset (n + 1) actions) (rest : List HostAction) :
    actions ≠ .reset :: rest := by
  rintro rfl
  exact free .reset (by simp) rfl

theorem NoReset.tail {n : Nat} {actions : List HostAction} (free : NoReset (n + 1) actions) :
    NoReset n actions.tail := by
  cases actions with
  | nil => simp [NoReset]
  | cons a rest => exact fun b later => free b (List.mem_cons_of_mem a later)

/-! ### One command, one step -/

/-- A command given to an engine that is not faulted keeps FAULT_CODE and does not enter FAULTED, or raises a usage fault
whose code is not NONE. -/
theorem exec_keeps_or_faults {i : Instr} {s t : State} (p : s.phase ≠ .faulted) (run : exec i s = .next t) :
    (t.phase ≠ .faulted ∧ t.faultCode = s.faultCode) ∨ ∃ code, code ≠ .none ∧ t = s.raiseUsageFault code := by
  have outcome := exec_next_iff.mp run
  cases i with
  | init =>
    cases outcome with
    | rejected faulted => exact absurd faulted p
    | started _ => exact .inl ⟨by simp, by simp⟩
  | update b =>
    cases outcome with
    | rejected faulted => exact absurd faulted p
    | notInitialized _ => exact .inr ⟨_, by decide, rfl⟩
    | afterFinalize _ => exact .inr ⟨_, by decide, rfl⟩
    | overflowed _ _ => exact .inr ⟨_, by decide, rfl⟩
    | appended _ _ _ _ _ _ _ => exact .inl ⟨by simpa using p, by simp⟩
    | drained _ _ _ _ _ _ _ _ _ => exact .inl ⟨by simpa using p, by simp⟩
  | finalize =>
    cases outcome with
    | rejected faulted => exact absurd faulted p
    | notInitialized _ => exact .inr ⟨_, by decide, rfl⟩
    | afterFinalize _ => exact .inr ⟨_, by decide, rfl⟩
    | ended _ _ _ _ _ _ _ _ _ _ _ => exact .inl ⟨by simp, by simp⟩

/-- What a step does to FAULT_CODE and to being faulted. -/
inductive FaultCodeStep (s t : State) : Prop where
  | cleared (rest : List HostAction) (given : s.host = .reset :: rest) (phase : t.phase = .idle)
      (code : t.faultCode = .none)
  | kept (phase : t.phase = .faulted ↔ s.phase = .faulted) (code : t.faultCode = s.faultCode)
  | raised (w : CmdWord) (rest : List HostAction) (code : FaultCode) (given : s.host = .command w :: rest)
      (p : s.phase ≠ .faulted) (notNone : code ≠ .none) (entry : t = faultedAs code { s with host := rest })

theorem step_faultCode {s t : State} (taken : step s = .next t) : FaultCodeStep s t := by
  cases step_next_iff.mp taken with
  | waited given => exact .kept .rfl rfl
  | reset rest given => exact .cleared rest given rfl rfl
  | sampled rest given => exact .kept (by simp) (by simp)
  | commanded w rest t given outcome =>
    cases outcome with
    | rejected p => exact .kept (by simp) (by simp)
    | illegal p _ => exact .raised w rest .illegalCommand given p (by decide) (raiseUsageFault_eq_faultedAs _ _)
    | performed i t p _ run =>
      obtain ⟨unfaulted, code⟩ | ⟨code, notNone, entry⟩ := exec_keeps_or_faults p run
      · exact .kept (iff_of_false unfaulted p) code
      · exact .raised w rest code given p notNone (entry.trans (raiseUsageFault_eq_faultedAs _ _))

/-- The step that takes a reset. -/
theorem step_of_reset {s t : State} {rest : List HostAction} (given : s.host = .reset :: rest)
    (taken : step s = .next t) : t = State.hostReset { s with host := rest } := by
  rw [step_of_action given, performAction_reset] at taken
  cases taken
  rfl

/-- A faulted engine stays faulted and keeps its code in every step that is no reset. -/
theorem step_faulted_keeps {s t : State} (taken : step s = .next t) (p : s.phase = .faulted)
    (noReset : ∀ rest, s.host ≠ .reset :: rest) : t.phase = .faulted ∧ t.faultCode = s.faultCode := by
  cases step_faultCode taken with
  | cleared rest given _ _ => exact absurd given (noReset rest)
  | kept phase code => exact ⟨phase.mpr p, code⟩
  | raised _ _ _ _ unfaulted _ _ => exact absurd p unfaulted

/-- Only a reset and a command that enters FAULTED change FAULT_CODE. -/
theorem step_changes_faultCode {s t : State} (taken : step s = .next t) (changed : t.faultCode ≠ s.faultCode) :
    (∃ rest, s.host = .reset :: rest) ∨
    (∃ w rest, s.host = .command w :: rest ∧ s.phase ≠ .faulted ∧ t.phase = .faulted ∧ t.faultCode ≠ .none) := by
  cases step_faultCode taken with
  | cleared rest given _ _ => exact .inl ⟨rest, given⟩
  | kept _ code => exact absurd code changed
  | raised w rest code given p notNone entry =>
    subst entry
    exact .inr ⟨w, rest, given, p, faultedAs_phase _ _, notNone⟩

/-- A step that enters FAULTED stores a code other than NONE. -/
theorem step_enters_faulted {s t : State} (taken : step s = .next t) (p : s.phase ≠ .faulted)
    (faulted : t.phase = .faulted) : t.faultCode ≠ .none := by
  cases step_faultCode taken with
  | cleared _ _ idle _ => simp [idle] at faulted
  | kept phase _ => exact absurd (phase.mp faulted) p
  | raised _ _ code _ _ notNone entry =>
    subst entry
    exact notNone

/-! ### Runs without a reset -/

/-- Once faulted, a run without a reset keeps PHASE and FAULT_CODE. -/
theorem run_faulted_keeps {n : Nat} {s t : State} (p : s.phase = .faulted) (free : NoReset n s.host)
    (whole : run n s = .next t) : t.phase = .faulted ∧ t.faultCode = s.faultCode := by
  induction n generalizing s with
  | zero =>
    cases whole
    exact ⟨p, rfl⟩
  | succ n ih =>
    obtain ⟨u, first, more⟩ := run_succ_next whole
    obtain ⟨phase, code⟩ := step_faulted_keeps first p free.head
    exact code ▸ ih phase (step_host first ▸ free.tail) more

/-- Within the first `n` steps from `s`, some step finds the engine not faulted and is a command that raises the usage fault
`code`. -/
def FaultsFirst (n : Nat) (s : State) (code : FaultCode) : Prop :=
  ∃ (k : Nat) (u : State) (w : CmdWord) (rest : List HostAction),
    k < n ∧ run k s = .next u ∧ u.phase ≠ .faulted ∧ u.host = .command w :: rest ∧ code ≠ .none ∧
      step u = .next (faultedAs code { u with host := rest })

theorem FaultsFirst.after_step {n : Nat} {s u : State} {code : FaultCode} (first : step s = .next u)
    (later : FaultsFirst n u code) : FaultsFirst (n + 1) s code := by
  obtain ⟨k, v, w, rest, within, before, faulting⟩ := later
  exact ⟨k + 1, v, w, rest, Nat.succ_lt_succ within, (run_succ first).trans before, faulting⟩

/-- A run without a reset from no fault stays without a fault and without a code, or ends faulted with the code of the
command that faulted. -/
theorem run_faultCode {n : Nat} {s t : State} (p : s.phase ≠ .faulted) (clear : s.faultCode = .none)
    (free : NoReset n s.host) (whole : run n s = .next t) :
    (t.phase ≠ .faulted ∧ t.faultCode = .none) ∨ (t.phase = .faulted ∧ FaultsFirst n s t.faultCode) := by
  induction n generalizing s with
  | zero =>
    cases whole
    exact .inl ⟨p, clear⟩
  | succ n ih =>
    obtain ⟨u, first, more⟩ := run_succ_next whole
    have free' : NoReset n u.host := step_host first ▸ free.tail
    cases step_faultCode first with
    | cleared rest given _ _ => exact absurd given (free.head rest)
    | kept phase code =>
      obtain unfaulted | ⟨faulted, later⟩ := ih (mt phase.mp p) (code.trans clear) free' more
      · exact .inl unfaulted
      · exact .inr ⟨faulted, later.after_step first⟩
    | raised w rest code given _ notNone entry =>
      subst entry
      obtain ⟨faulted, same⟩ := run_faulted_keeps (faultedAs_phase _ _) free' more
      rw [faultedAs_faultCode] at same
      exact .inr ⟨faulted, same ▸ ⟨0, s, w, rest, n.succ_pos, run_zero s, p, given, notNone, first⟩⟩

/-- Settles O33: the step clauses from `step_faultCode`, the run clause by induction on the number of steps. -/
theorem faultCodeIsTheFirstFault : Obligations.FaultCodeIsTheFirstFault := by
  unfold Obligations.FaultCodeIsTheFirstFault
  refine ⟨rfl, fun s t taken => ⟨fun rest given => ?_, step_changes_faultCode taken, step_enters_faulted taken,
    fun p noReset => (step_faulted_keeps taken p noReset).2⟩, fun n s t p clear free whole => ?_⟩
  · rw [step_of_reset given taken, State.hostReset_faultCode]
  · obtain unfaulted | ⟨faulted, k, u, w, rest, within, before, phase, given, notNone, entry⟩ :=
      run_faultCode p clear free whole
    · exact .inl unfaulted
    · exact .inr ⟨k, u, w, rest, t.faultCode, within, before, phase, given, notNone, entry, faulted, rfl⟩

end Sys2Proof.Machine
end

section
/-! PROOFS. The answer to a command (30_encoding.md R64): it has one of three shapes, a denial, a bare acknowledgement and
a digest, and each outcome of a command has one of them. -/

namespace Sys2Proof.Machine

/-- The ways in which the next state `t` answers the decoded word `c` given in state `s`. -/
inductive Answered (c : Command) (s t : State) : Prop where
  /-- Rejected, or a usage fault (60_exceptions.md R152, R153). -/
  | denied (p : t.phase = .faulted) (out : t.out = s.out ++ [.response ⟨false, t.status, none⟩])
  /-- Performed by a command that returns no digest. -/
  | acknowledged (p : t.phase ≠ .faulted) (other : c ≠ .instr .finalize)
      (out : t.out = s.out ++ [.response ⟨true, t.status, none⟩])
  /-- A performed FINALIZE (42_finalize.md R130, R136). -/
  | digested (x : HashWords) (p : t.phase ≠ .faulted) (final : c = .instr .finalize) (h : t.h = some x)
      (out : t.out = s.out ++ [.response ⟨true, t.status, some (serialize x)⟩])

theorem answered_reject (c : Command) {s : State} (p : s.phase = .faulted) : Answered c s s.reject :=
  .denied p rfl

theorem answered_raiseUsageFault (c : Command) (code : FaultCode) (s : State) :
    Answered c s (s.raiseUsageFault code) :=
  .denied rfl rfl

/-- Each outcome of a command's meaning is an answer to that command. -/
theorem exec_answered {i : Instr} {s t : State} (run : exec i s = .next t) : Answered (.instr i) s t := by
  have outcome := exec_next_iff.mp run
  cases i with
  | init =>
    cases outcome with
    | rejected p => exact answered_reject _ p
    | started _ => exact .acknowledged (by simp) (by simp) rfl
  | update b =>
    cases outcome with
    | rejected p => exact answered_reject _ p
    | notInitialized _ => exact answered_raiseUsageFault _ _ s
    | afterFinalize _ => exact answered_raiseUsageFault _ _ s
    | overflowed _ _ => exact answered_raiseUsageFault _ _ s
    | appended _ _ p _ _ _ _ => exact .acknowledged (by simp [p]) (by simp) rfl
    | drained _ _ _ p _ _ _ _ _ => exact .acknowledged (by simp [p]) (by simp) rfl
  | finalize =>
    cases outcome with
    | rejected p => exact answered_reject _ p
    | notInitialized _ => exact answered_raiseUsageFault _ _ s
    | afterFinalize _ => exact answered_raiseUsageFault _ _ s
    | ended _ _ _ _ y _ _ _ _ _ _ => exact .digested y (by simp) rfl rfl rfl

theorem CommandOutcome.answered {w : CmdWord} {s t : State} (outcome : CommandOutcome w s t) :
    Answered (decode w) s t := by
  cases outcome with
  | rejected p => exact answered_reject _ p
  | illegal _ _ => exact answered_raiseUsageFault _ _ s
  | performed i _ _ d run => exact d ▸ exec_answered run

/-- The step that takes a command word is an answer to that word. -/
theorem step_answered {s t : State} {w : CmdWord} {rest : List HostAction} (given : s.host = .command w :: rest)
    (taken : step s = .next t) : Answered (decode w) s t := by
  rw [step_of_action given, performAction_command] at taken
  cases (performCommand_next_iff.mp taken).answered with
  | denied p out => exact .denied p out
  | acknowledged p other out => exact .acknowledged p other out
  | digested x p final h out => exact .digested x p final h out

/-- Settles O6: each of the three shapes of an answer has the fields R64 asks for. -/
theorem everyCommandGetsOneResponse : Obligations.EveryCommandGetsOneResponse := by
  unfold Obligations.EveryCommandGetsOneResponse
  intro s t w rest given taken
  refine ⟨by simp [step_host taken, given], ?_⟩
  cases step_answered given taken with
  | denied p out => exact ⟨_, out, rfl, by simp [p], by simp, by simp⟩
  | acknowledged p other out => exact ⟨_, out, rfl, by simp [p], by simp [other], by simp⟩
  | digested x p final h out => exact ⟨_, out, rfl, by simp [p], by simp [final], by simp [h]⟩

end Sys2Proof.Machine
end

section
/-! PROOFS. The legal and the illegal words (30_encoding.md R62, R63): the decoder's cases said of the number of a word,
where OP is the quotient and DATA the remainder by 256. -/

namespace Sys2Proof

theorem opField_eq_iff (w : CmdWord) (op : Byte) : opField w = op ↔ w.toNat / 256 = op.toNat := by
  rw [← BitVec.toNat_inj, opField_toNat]

theorem dataField_eq_iff (w : CmdWord) (data : Byte) : dataField w = data ↔ w.toNat % 256 = data.toNat := by
  rw [← BitVec.toNat_inj, dataField_toNat]

/-- An illegal word has a nonzero reserved DATA field or an OP of no command (30_encoding.md R62, R63). -/
theorem decode_eq_illegal_iff_fields (w : CmdWord) :
    decode w = .illegal ↔
      (opField w = 0x01 → dataField w ≠ 0x00) ∧ opField w ≠ 0x02 ∧ (opField w = 0x03 → dataField w ≠ 0x00) := by
  unfold decode
  split
  next init => simp [init]
  next notInit =>
    split
    next update => simp [update]
    next notUpdate =>
      split
      next finalize => simp [finalize]
      next notFinalize =>
        exact iff_of_true rfl
          ⟨fun init => absurd init notInit, notUpdate, fun finalize => absurd finalize notFinalize⟩

/-- The same of the number of the word. -/
theorem decode_eq_illegal_iff (w : CmdWord) :
    decode w = .illegal ↔
      w.toNat ≠ 0x0100 ∧ ¬(0x0200 ≤ w.toNat ∧ w.toNat ≤ 0x02FF) ∧ w.toNat ≠ 0x0300 := by
  simp only [decode_eq_illegal_iff_fields, ne_eq, opField_eq_iff, dataField_eq_iff, BitVec.reduceToNat]
  omega

/-- The words of R63's last sentence. -/
theorem decode_ne_illegal_iff (w : CmdWord) :
    decode w ≠ .illegal ↔ w = 0x0100 ∨ (0x0200 ≤ w.toNat ∧ w.toNat ≤ 0x02FF) ∨ w = 0x0300 := by
  simp only [ne_eq, decode_eq_illegal_iff, ← BitVec.toNat_inj, BitVec.reduceToNat]
  omega

/-- UPDATE's words, one for each byte (30_encoding.md R62). -/
def updateWords : List CmdWord := (List.range' 0x0200 256).map (BitVec.ofNat 16)

theorem mem_updateWords (w : CmdWord) : w ∈ updateWords ↔ 0x0200 ≤ w.toNat ∧ w.toNat ≤ 0x02FF := by
  simp only [updateWords, List.mem_map, List.mem_range'_1]
  constructor
  · rintro ⟨n, bounds, rfl⟩
    rw [BitVec.toNat_ofNat]
    omega
  · intro bounds
    exact ⟨w.toNat, by omega, by simp⟩

/-- The numbers of UPDATE's words fit in 16 bits, so different numbers are different words. -/
theorem updateWords_nodup : updateWords.Nodup := by
  refine List.Nodup.map_on (fun m below n below' same => ?_) List.nodup_range'
  rw [List.mem_range'_1] at below below'
  have sameNumber := congrArg BitVec.toNat same
  rw [BitVec.toNat_ofNat, BitVec.toNat_ofNat] at sameNumber
  omega

/-- The legal words: INIT's, FINALIZE's and UPDATE's (30_encoding.md R63). -/
def legalWords : List CmdWord := 0x0100 :: 0x0300 :: updateWords

theorem legalWords_length : legalWords.length = 258 := by
  simp [legalWords, updateWords]

theorem mem_legalWords (w : CmdWord) : w ∈ legalWords ↔ decode w ≠ .illegal := by
  rw [decode_ne_illegal_iff, legalWords, List.mem_cons, List.mem_cons, mem_updateWords, or_comm (b := w = 0x0300)]

theorem legalWords_nodup : legalWords.Nodup := by
  rw [legalWords, List.nodup_cons, List.nodup_cons, List.mem_cons, mem_updateWords, mem_updateWords]
  exact ⟨by decide, by decide, updateWords_nodup⟩

end Sys2Proof

namespace Sys2Proof.Machine

/-- An illegal word given to an engine that is not faulted enters the fault state of ILLEGAL_COMMAND (60_exceptions.md
R151, R153). -/
theorem step_of_illegal_word {s : State} {w : CmdWord} {rest : List HostAction} (given : s.host = .command w :: rest)
    (d : decode w = .illegal) (p : s.phase ≠ .faulted) :
    step s = .next (faultedAs .illegalCommand { s with host := rest }) := by
  rw [← raiseUsageFault_eq_faultedAs]
  exact step_next_iff.mpr (.commanded w rest _ given (.illegal p d))

/-- Settles O9: the word lists from the decoder's cases on the number of a word, the count from `legalWords`. -/
theorem illegalWordsAreThoseListed : Obligations.IllegalWordsAreThoseListed := by
  unfold Obligations.IllegalWordsAreThoseListed
  refine ⟨fun w => ⟨?_, decode_ne_illegal_iff w⟩, ⟨legalWords, legalWords_nodup, legalWords_length, mem_legalWords⟩,
    fun s w rest given d p => step_of_illegal_word given d p⟩
  rw [decode_eq_illegal_iff]
  omega

end Sys2Proof.Machine
end

section
/-! PROOFS. The word functions (00_scope.md R11; 40_compress.md R80 to R85) bit by bit. The bit laws of the sigma
functions come from the one of `rotr`, the corner cases of Ch from their form at the word of 32 ones. -/

namespace Sys2Proof.Machine

/-- The bit law of the rotation (00_scope.md R11). Bits below the seam come from the right shift, the others from the
left shift. -/
theorem getLsbD_rotr (x : Word) {n i : Nat} (amount : n < 32) (below : i < 32) :
    (rotr x n).getLsbD i = x.getLsbD ((i + n) % 32) := by
  rw [rotr, BitVec.getLsbD_or, BitVec.getLsbD_ushiftRight, BitVec.getLsbD_shiftLeft]
  by_cases low : i + n < 32
  · simp [Nat.mod_eq_of_lt low, Nat.add_comm n i, show i < 32 - n by omega]
  · have wrapped : (i + n) % 32 = i - (32 - n) := by omega
    simp [wrapped, below, BitVec.getLsbD_of_ge x (n + i) (by omega), show ¬i < 32 - n by omega]

/-- A logical shift brings in zeros: it has no bit from beyond the top of the word. -/
theorem getLsbD_logicalShift (x : Word) (n i : Nat) :
    (x >>> n).getLsbD i = (decide (i + n ≤ 31) && x.getLsbD (i + n)) := by
  rw [BitVec.getLsbD_ushiftRight, Nat.add_comm n i]
  by_cases within : i + n ≤ 31
  · simp [within]
  · simp [within, BitVec.getLsbD_of_ge x (i + n) (by omega)]

theorem getLsbD_bigSigma0 (x : Word) {i : Nat} (below : i < 32) :
    (bigSigma0 x).getLsbD i =
      ((x.getLsbD ((i + 2) % 32) ^^ x.getLsbD ((i + 13) % 32)) ^^ x.getLsbD ((i + 22) % 32)) := by
  simp [bigSigma0, getLsbD_rotr x _ below]

theorem getLsbD_bigSigma1 (x : Word) {i : Nat} (below : i < 32) :
    (bigSigma1 x).getLsbD i =
      ((x.getLsbD ((i + 6) % 32) ^^ x.getLsbD ((i + 11) % 32)) ^^ x.getLsbD ((i + 25) % 32)) := by
  simp [bigSigma1, getLsbD_rotr x _ below]

theorem getLsbD_smallSigma0 (x : Word) {i : Nat} (below : i < 32) :
    (smallSigma0 x).getLsbD i =
      ((x.getLsbD ((i + 7) % 32) ^^ x.getLsbD ((i + 18) % 32)) ^^ (decide (i + 3 ≤ 31) && x.getLsbD (i + 3))) := by
  rw [smallSigma0, BitVec.getLsbD_xor, getLsbD_logicalShift, BitVec.getLsbD_xor, getLsbD_rotr x (by omega) below,
    getLsbD_rotr x (by omega) below]

theorem getLsbD_smallSigma1 (x : Word) {i : Nat} (below : i < 32) :
    (smallSigma1 x).getLsbD i =
      ((x.getLsbD ((i + 17) % 32) ^^ x.getLsbD ((i + 19) % 32)) ^^ (decide (i + 10 ≤ 31) && x.getLsbD (i + 10))) := by
  rw [smallSigma1, BitVec.getLsbD_xor, getLsbD_logicalShift, BitVec.getLsbD_xor, getLsbD_rotr x (by omega) below,
    getLsbD_rotr x (by omega) below]

@[simp] theorem smallSigma0_zero : smallSigma0 0 = 0 := by decide

@[simp] theorem smallSigma1_zero : smallSigma1 0 = 0 := by decide

/-- Settles O15: the bit laws from those of the rotation and of the logical shift; the examples are evaluated. -/
theorem sigmaFunctions : Obligations.SigmaFunctions := by
  unfold Obligations.SigmaFunctions
  exact ⟨fun x _ below => ⟨getLsbD_bigSigma0 x below, getLsbD_bigSigma1 x below, getLsbD_smallSigma0 x below,
      getLsbD_smallSigma1 x below⟩,
    by decide, by decide, by decide, by decide, by decide, by decide, smallSigma0_zero, by decide, by decide,
    smallSigma1_zero, by decide, by decide⟩

/-- Ch takes a bit from `y` where `x` has a 1 and from `z` where it has a 0 (40_compress.md R84). -/
theorem getLsbD_ch (x y z : Word) {i : Nat} (below : i < 32) :
    (ch x y z).getLsbD i = if x.getLsbD i then y.getLsbD i else z.getLsbD i := by
  rw [ch, BitVec.getLsbD_xor, BitVec.getLsbD_and, BitVec.getLsbD_and, BitVec.getLsbD_not]
  cases x.getLsbD i <;> simp [below]

theorem getLsbD_maj (x y z : Word) (i : Nat) :
    (maj x y z).getLsbD i =
      (((x.getLsbD i && y.getLsbD i) ^^ (x.getLsbD i && z.getLsbD i)) ^^ (y.getLsbD i && z.getLsbD i)) := by
  simp [maj]

/-- The exclusive or of the three pairs is 1 exactly when at least two of three bits are 1. -/
theorem majority_eq_true_iff (a b c : Bool) :
    (((a && b) ^^ (a && c)) ^^ (b && c)) = true ↔ 2 ≤ a.toNat + b.toNat + c.toNat := by
  revert a b c
  decide

theorem ch_allOnes (y z : Word) : ch (BitVec.allOnes 32) y z = y := by
  rw [ch, BitVec.allOnes_and, BitVec.not_allOnes, BitVec.zero_and, BitVec.xor_zero]

theorem ch_zero (y z : Word) : ch 0 y z = z := by
  apply BitVec.eq_of_getLsbD_eq
  intro i below
  rw [getLsbD_ch 0 y z below]
  simp

theorem maj_self_left (x z : Word) : maj x x z = x := by
  simp [maj]

theorem maj_zero_allOnes (z : Word) : maj 0 (BitVec.allOnes 32) z = z := by
  rw [maj, BitVec.allOnes_and]
  simp

/-- Settles O16: the bit laws of Ch and Maj, and their values at words of all zeros and all ones. -/
theorem chooseAndMajority : Obligations.ChooseAndMajority := by
  unfold Obligations.ChooseAndMajority
  intro x y z
  refine ⟨fun i below => ⟨getLsbD_ch x y z below, ?_⟩, ch_allOnes y z, ch_zero y z, maj_self_left x z,
    maj_zero_allOnes z, maj_self_left 0 0⟩
  rw [getLsbD_maj]
  exact majority_eq_true_iff _ _ _

end Sys2Proof.Machine
end

section
/-! PROOFS. The message schedule (40_compress.md R87, R88): its first 16 words are packed from the block's bytes, each
later one is the recurrence, and so the zero block gives zeros. -/

namespace Sys2Proof.Machine

/-- The four bytes packed into a word are its bytes, the first the most significant (00_scope.md R12). -/
theorem be32_bytes (b0 b1 b2 b3 : Byte) :
    (be32 b0 b1 b2 b3).extractLsb' 24 8 = b0 ∧ (be32 b0 b1 b2 b3).extractLsb' 16 8 = b1 ∧
    (be32 b0 b1 b2 b3).extractLsb' 8 8 = b2 ∧ (be32 b0 b1 b2 b3).extractLsb' 0 8 = b3 := by
  rw [be32_append]
  refine ⟨?_, ?_, ?_, BitVec.extractLsb'_append_eq_right⟩
  · exact ((BitVec.extractLsb'_append_eq_of_le (by omega)).trans
      (BitVec.extractLsb'_append_eq_of_le (by omega))).trans BitVec.extractLsb'_append_eq_left
  · exact ((BitVec.extractLsb'_append_eq_of_le (by omega)).trans
      (BitVec.extractLsb'_append_eq_of_le (by omega))).trans BitVec.extractLsb'_append_eq_right
  · exact (BitVec.extractLsb'_append_eq_of_le (by omega)).trans BitVec.extractLsb'_append_eq_right

theorem schedule_length (blk : Block) : (schedule blk).length = 64 := scheduleTo_length blk 48

/-- One of the first 16 words of the schedule (40_compress.md R87). -/
theorem schedule_blockWord (blk : Block) (i : Fin 16) :
    (schedule blk).getD i.val 0 =
      be32 blk[4 * i.val] blk[4 * i.val + 1] blk[4 * i.val + 2] blk[4 * i.val + 3] := by
  rw [schedule_getD blk 0 i.val (by omega) (by omega)]
  simp [scheduleTo, blockWords]

/-- The recurrence reads only words that stand already: it is the same on the whole schedule as on the part before the
word (40_compress.md R88). -/
theorem nextScheduleWord_schedule (blk : Block) (n : Nat) (part : n ≤ 48) :
    nextScheduleWord (schedule blk) (16 + n) = nextScheduleWord (scheduleTo blk n) (16 + n) := by
  have earlier (k : Nat) (back : 1 ≤ k) :
      (schedule blk).getD (16 + n - k) 0 = (scheduleTo blk n).getD (16 + n - k) 0 :=
    schedule_getD blk n (16 + n - k) (by omega) part
  rw [nextScheduleWord, nextScheduleWord, earlier 2 (by omega), earlier 7 (by omega), earlier 15 (by omega),
    earlier 16 (by omega)]

/-- A word of the schedule from 16 on (40_compress.md R88). -/
theorem schedule_recurrence (blk : Block) {i : Nat} (late : 16 ≤ i) (below : i < 64) :
    (schedule blk).getD i 0 = nextScheduleWord (schedule blk) i := by
  obtain ⟨n, rfl⟩ := Nat.exists_eq_add_of_le late
  calc (schedule blk).getD (16 + n) 0
      = (scheduleTo blk (n + 1)).getD (16 + n) 0 := schedule_getD blk (n + 1) (16 + n) (by omega) (by omega)
    _ = nextScheduleWord (scheduleTo blk n) (16 + n) := by
        rw [scheduleTo, List.getD_append_right _ _ _ _ (scheduleTo_length blk n).le, scheduleTo_length]
        simp
    _ = nextScheduleWord (schedule blk) (16 + n) := (nextScheduleWord_schedule blk n (by omega)).symm

/-- Four zero words make the next one zero. -/
theorem nextScheduleWord_zero {w : List Word} {i : Nat} (late : 16 ≤ i) (zeros : ∀ j < i, w.getD j 0 = 0) :
    nextScheduleWord w i = 0 := by
  rw [nextScheduleWord, zeros (i - 2) (by omega), zeros (i - 7) (by omega), zeros (i - 15) (by omega),
    zeros (i - 16) (by omega), smallSigma0_zero, smallSigma1_zero]
  rfl

theorem schedule_zeroBlock (i : Nat) (below : i < 64) : (schedule (Vector.replicate 64 0)).getD i 0 = 0 := by
  induction i using Nat.strongRecOn with
  | ind i earlier =>
    by_cases early : i < 16
    · rw [schedule_blockWord _ ⟨i, early⟩]
      simp [be32]
    · rw [schedule_recurrence _ (by omega) below]
      exact nextScheduleWord_zero (by omega) fun j before => earlier j before (by omega)

/-- Settles O18: the bytes of a packed word for the first 16 words, the recurrence for the others. -/
theorem scheduleWords : Obligations.ScheduleWords := by
  unfold Obligations.ScheduleWords
  refine ⟨fun blk => ⟨schedule_length blk, fun i => ?_, fun i late below => schedule_recurrence blk late below, ?_⟩,
    schedule_zeroBlock⟩
  · rw [schedule_blockWord blk i]
    exact be32_bytes _ _ _ _
  · intro b0 b1 b2 b3
    have first := schedule_blockWord blk 0
    simp only [Fin.val_zero, Nat.mul_zero, Nat.zero_add, b0, b1, b2, b3] at first
    rw [first]
    decide

end Sys2Proof.Machine
end

section
/-! PROOFS. Compress (40_compress.md R90 to R92): the working variables of its rounds are `roundsTo`. -/

namespace Sys2Proof.Machine

/-- Settles O19: the working variables before round t are those after rounds 0 to t - 1. -/
theorem compressIsSixtyFourRounds : Obligations.CompressIsSixtyFourRounds := by
  unfold Obligations.CompressIsSixtyFourRounds
  intro x blk
  exact ⟨roundsTo (schedule blk) (WorkVars.ofHash x), roundsTo_zero _ _,
    fun t _ => ⟨WorkVars.t1 _ _ _, WorkVars.t2 _, rfl, rfl, roundsTo_succ _ _ t⟩, rfl⟩

end Sys2Proof.Machine
end

section
/-! PROOFS. INIT and UPDATE (41_init_update.md R110 to R115): the next state of each, and the overflow guard of TOTAL_BITS.
Each equation is an outcome of Laws/Commands.lean, with STATUS in its response read off the phase. -/

namespace Sys2Proof.Machine

/-- The response of a command that ends in ACTIVE, written out. -/
theorem respond_of_phase_active {s : State} (ok : Bool) (d : Option Digest) (p : s.phase = .active) :
    s.respond ok d =
      { s with out := s.out ++ [.response { ok := ok, status := s.faultCode.code ++ 0#2 ++ 1#2, digest := d }] } := by
  rw [State.respond, status_of_phase_active p, State.emit]

/-! ### INIT (41_init_update.md R111) -/

theorem exec_init_of_not_faulted {s : State} (p : s.phase ≠ .faulted) :
    exec .init s = .next (s.startMessage.respond true none) :=
  execInit_next_iff.mpr (.started p)

/-- An INIT right after an INIT changes nothing but what the host has received. -/
theorem startMessage_respond_twice (s : State) :
    { (s.startMessage.respond true none).startMessage.respond true none with
      out := (s.startMessage.respond true none).out } = s.startMessage.respond true none := rfl

/-- INIT's DATA field is reserved (30_encoding.md R62). -/
theorem decode_init_data_ne_zero {b : Byte} (nonzero : b ≠ 0) : decode (0x01#8 ++ b) = .illegal := by
  rw [decode_eq_illegal_iff_fields, opField_append, dataField_append]
  exact ⟨fun _ => nonzero, by decide, fun _ => nonzero⟩

/-- Settles O21: INIT's equation, read once from `s` and once from the state it leads to. -/
theorem initStartsAMessage : Obligations.InitStartsAMessage := by
  unfold Obligations.InitStartsAMessage
  refine ⟨fun s p => ⟨_, exec_init_of_not_faulted p, respond_of_phase_active _ _ s.startMessage_phase, _,
      exec_init_of_not_faulted (by simp), startMessage_respond_twice s⟩,
    ⟨_, exec_init_of_not_faulted (by decide), by decide⟩, fun b nonzero => decode_init_data_ne_zero nonzero⟩

/-! ### UPDATE (41_init_update.md R112 to R115) -/

/-- BUF with its last byte written reads as the block whose other bytes it holds (41_init_update.md R115). -/
theorem readBlock_writeByte_last {buf : Vector (Option Byte) 64} {blk : Block}
    (filled : ∀ i : Fin 64, i.val < 63 → buf[i] = some blk[i]) :
    readBlock (writeByte buf 63 blk[63]) = some blk := by
  rw [readBlock_eq_some_bytes]
  intro i
  by_cases last : i.val = 63
  · obtain rfl : i = 63 := Fin.ext last
    exact writeByte_same buf 63 blk[63]
  · rw [writeByte_other _ _ _ _ last]
    exact filled i (by omega)

theorem exec_update_of_idle (b : Byte) {s : State} (p : s.phase = .idle) :
    exec (.update b) s = .next (faultedAs .notInitialized s) := by
  rw [← raiseUsageFault_eq_faultedAs]
  exact execUpdate_next_iff.mpr (.notInitialized p)

theorem exec_update_of_done (b : Byte) {s : State} (p : s.phase = .done) :
    exec (.update b) s = .next (faultedAs .afterFinalize s) := by
  rw [← raiseUsageFault_eq_faultedAs]
  exact execUpdate_next_iff.mpr (.afterFinalize p)

/-- In ACTIVE an UPDATE that answers a next state raises LENGTH_OVERFLOW at the last value of TOTAL_BITS, and at any other
value it is performed and adds 8. -/
theorem exec_update_active_cases {b : Byte} {s t : State} (p : s.phase = .active)
    (run : exec (.update b) s = .next t) :
    (s.totalBits = some lastTotalBits ∧ t = faultedAs .lengthOverflow s) ∨
    (t.phase = .active ∧ ∃ l, s.totalBits = some l ∧ l ≠ lastTotalBits ∧ t.totalBits = some (l + 8)) := by
  cases execUpdate_next_iff.mp run with
  | rejected p' => simp [p] at p'
  | notInitialized p' => simp [p] at p'
  | afterFinalize p' => simp [p] at p'
  | overflowed _ full => exact .inl ⟨full, raiseUsageFault_eq_faultedAs _ _⟩
  | appended l n _ total room _ _ => exact .inr ⟨by simp [p], l, total, room, by simp⟩
  | drained l x blk _ total room _ _ _ => exact .inr ⟨by simp [p], l, total, room, by simp⟩

/-- In ACTIVE UPDATE raises LENGTH_OVERFLOW at the last value of TOTAL_BITS and at no other (41_init_update.md R113). -/
theorem exec_update_overflows_iff (b : Byte) {s : State} (p : s.phase = .active) :
    exec (.update b) s = .next (faultedAs .lengthOverflow s) ↔ s.totalBits = some lastTotalBits := by
  constructor
  · intro run
    obtain ⟨full, -⟩ | ⟨active, -⟩ := exec_update_active_cases p run
    · exact full
    · simp at active
  · intro full
    rw [← raiseUsageFault_eq_faultedAs]
    exact execUpdate_next_iff.mpr (.overflowed p full)

/-- Settles O22: each equation is one outcome of UPDATE. -/
theorem updateAddsOneByte : Obligations.UpdateAddsOneByte := by
  unfold Obligations.UpdateAddsOneByte
  refine ⟨?_, ?_, fun b s p => exec_update_of_idle b p, fun b s p => exec_update_of_done b p,
    fun b s p full => (exec_update_overflows_iff b p).mpr full⟩
  · intro b s n l p len total more room
    have appended := execUpdate_next_iff.mpr (.appended (b := b) l n p total room len more)
    exact appended.trans (congrArg _ (respond_of_phase_active _ _ p))
  · intro b s l x blk p len total room hash filled last
    subst last
    have drained := execUpdate_next_iff.mpr (.drained l x blk p total room len hash (readBlock_writeByte_last filled))
    exact drained.trans (congrArg _ (respond_of_phase_active _ _ p))

/-! ### The overflow guard (41_init_update.md R113) -/

theorem lastTotalBits_toNat : lastTotalBits.toNat = 2 ^ 64 - 8 := rfl

/-- Among the multiples of 8 only the last one leaves no room for 8 more. -/
theorem add_eight_overflows_iff {l : BitCount} (bytes : l.toNat % 8 = 0) :
    2 ^ 64 ≤ l.toNat + 8 ↔ l = lastTotalBits := by
  have bound := l.isLt
  rw [← BitVec.toNat_inj, lastTotalBits_toNat]
  omega

/-- Where the guard leaves room, adding 8 does not wrap. -/
theorem toNat_add_eight {l : BitCount} (bytes : l.toNat % 8 = 0) (room : l ≠ lastTotalBits) :
    (l + 8).toNat = l.toNat + 8 := by
  have fits := mt (add_eight_overflows_iff bytes).mp room
  exact BitVec.toNat_add_of_lt (Nat.lt_of_not_le fits)

/-- For fewer than 2^61 bytes the count of their bits fits TOTAL_BITS. -/
theorem toNat_bitCount {n : Nat} (short : n < 2 ^ 61) : (BitVec.ofNat 64 (8 * n)).toNat = 8 * n := by
  rw [BitVec.toNat_ofNat]
  omega

/-- The guard is reached when the next byte is number 2^61. -/
theorem Absorbed.totalBits_eq_last_iff {m : List Byte} {s : State} (absorbed : Absorbed m s)
    (short : m.length < 2 ^ 61) : s.totalBits = some lastTotalBits ↔ m.length + 1 = 2 ^ 61 := by
  rw [absorbed.totalBits, Option.some.injEq, ← BitVec.toNat_inj, toNat_bitCount short,
    lastTotalBits_toNat]
  omega

/-- Settles O23: the arithmetic of the guard, and UPDATE's two cases in ACTIVE. -/
theorem lengthOverflowGuard : Obligations.LengthOverflowGuard := by
  unfold Obligations.LengthOverflowGuard
  refine ⟨fun l bytes => add_eight_overflows_iff bytes,
    fun b s p full => (exec_update_overflows_iff b p).mpr full,
    fun b m s absorbed short =>
      (exec_update_overflows_iff b absorbed.phase).trans (absorbed.totalBits_eq_last_iff short),
    ?_, fun m s absorbed short => ⟨_, absorbed.totalBits, toNat_bitCount short⟩⟩
  intro b s t l p total bytes run performed
  obtain ⟨-, rfl⟩ | ⟨-, l', total', room, sum⟩ := exec_update_active_cases p run
  · exact absurd (faultedAs_phase _ _) performed
  · obtain rfl : l = l' := Option.some.inj (total.symm.trans total')
    exact ⟨l + 8, sum, toNat_add_eight bytes room⟩

end Sys2Proof.Machine
end

section
/-! PROOFS. FINALIZE (42_finalize.md R130 to R137): its next state, the bytes of the padded blocks and those of the
digest. -/

namespace Sys2Proof.Machine

/-! ### The command (42_finalize.md R130, R137) -/

/-- The response of a command that ends in DONE, written out. -/
theorem respond_of_phase_done {s : State} (ok : Bool) (d : Option Digest) (p : s.phase = .done) :
    s.respond ok d =
      { s with out := s.out ++ [.response { ok := ok, status := s.faultCode.code ++ 0#2 ++ 2#2, digest := d }] } := by
  rw [State.respond, status_of_phase_done p, State.emit]

theorem exec_finalize_of_idle {s : State} (p : s.phase = .idle) :
    exec .finalize s = .next (faultedAs .notInitialized s) := by
  rw [← raiseUsageFault_eq_faultedAs]
  exact execFinalize_next_iff.mpr (.notInitialized p)

theorem exec_finalize_of_done {s : State} (p : s.phase = .done) :
    exec .finalize s = .next (faultedAs .afterFinalize s) := by
  rw [← raiseUsageFault_eq_faultedAs]
  exact execFinalize_next_iff.mpr (.afterFinalize p)

/-- FINALIZE's DATA field is reserved (30_encoding.md R62). -/
theorem decode_finalize_data_ne_zero {b : Byte} (nonzero : b ≠ 0) : decode (0x03#8 ++ b) = .illegal := by
  rw [decode_eq_illegal_iff_fields, opField_append, dataField_append]
  exact ⟨fun _ => nonzero, by decide, fun _ => nonzero⟩

/-- Settles O24: FINALIZE's outcome in ACTIVE, whose remainder is the prefix of BUF below BUF_LEN; the faults; the
encoding. -/
theorem finalizeEndsTheMessage : Obligations.FinalizeEndsTheMessage := by
  unfold Obligations.FinalizeEndsTheMessage
  refine ⟨?_, fun s p => exec_finalize_of_idle p, fun s p => exec_finalize_of_done p,
    fun b nonzero => decode_finalize_data_ne_zero nonzero⟩
  intro s n l x r p len total hash size filled
  have read : readPrefix s.buf n.toNat = some r := (readPrefix_eq_some (by omega)).mpr ⟨size, filled⟩
  have ended := execFinalize_next_iff.mpr (.ended n l r x _ p len total read hash rfl)
  exact ended.trans (congrArg _ (respond_of_phase_done _ _ (State.endMessage_phase _ s)))

/-! ### The padded blocks (42_finalize.md R131 to R134) -/

theorem markedByte_remainder {r : List Byte} {i : Nat} (inside : i < r.length) : markedByte r i = r.getD i 0 :=
  if_pos inside

theorem markedByte_marker (r : List Byte) : markedByte r r.length = 0x80 := by simp [markedByte]

theorem markedByte_zero {r : List Byte} {i : Nat} (past : r.length < i) : markedByte r i = 0 := by
  rw [markedByte, if_neg (by omega), if_neg (by omega)]

/-- Byte `56 + j` of a block with the length field is byte `j` of the bit count (42_finalize.md R134). -/
theorem lengthFieldByte_offset (l : BitCount) (j : Fin 8) :
    lengthFieldByte l (56 + j.val) = l.extractLsb' (56 - 8 * j.val) 8 := by
  simp [lengthFieldByte, bytesBE64, List.getD]

theorem oneBlock_before (r : List Byte) (l : BitCount) {i : Fin 64} (before : i.val < 56) :
    (oneBlock r l)[i] = markedByte r i.val := by
  simp [oneBlock, before]

theorem oneBlock_lengthField (r : List Byte) (l : BitCount) (j : Fin 8) :
    (oneBlock r l)[56 + j.val] = l.extractLsb' (56 - 8 * j.val) 8 := by
  rw [← lengthFieldByte_offset]
  simp [oneBlock]

theorem markerBlock_getElem (r : List Byte) (i : Fin 64) : (markerBlock r)[i] = markedByte r i.val := by
  simp [markerBlock]

theorem lengthBlock_before (l : BitCount) {i : Fin 64} (before : i.val < 56) : (lengthBlock l)[i] = 0 := by
  simp [lengthBlock, before]

theorem lengthBlock_lengthField (l : BitCount) (j : Fin 8) :
    (lengthBlock l)[56 + j.val] = l.extractLsb' (56 - 8 * j.val) 8 := by
  rw [← lengthFieldByte_offset]
  simp [lengthBlock]

theorem finalBlocks_of_le {r : List Byte} (l : BitCount) (short : r.length ≤ 55) :
    finalBlocks r l = [oneBlock r l] :=
  if_pos short

theorem finalBlocks_of_ge {r : List Byte} (l : BitCount) (long : 56 ≤ r.length) :
    finalBlocks r l = [markerBlock r, lengthBlock l] :=
  if_neg (by omega)

/-- Settles O25: below byte 56 of the one block, and everywhere in the first of two, stand the marked bytes; the last
block ends with the length field. -/
theorem finalBlockBytes : Obligations.FinalBlockBytes := by
  unfold Obligations.FinalBlockBytes
  intro r l _
  constructor
  · intro short
    refine ⟨oneBlock r l, finalBlocks_of_le l short, fun i inside => ?_, fun i marker => ?_, fun i past before => ?_,
      oneBlock_lengthField r l⟩
    · rw [oneBlock_before r l (by omega), markedByte_remainder inside]
    · rw [oneBlock_before r l (by omega), marker, markedByte_marker]
    · rw [oneBlock_before r l before, markedByte_zero past]
  · intro long
    refine ⟨markerBlock r, lengthBlock l, finalBlocks_of_ge l long, fun i inside => ?_, fun i marker => ?_,
      fun i past => ?_, fun i before => lengthBlock_before l before, lengthBlock_lengthField l⟩
    · rw [markerBlock_getElem, markedByte_remainder inside]
    · rw [markerBlock_getElem, marker, markedByte_marker]
    · rw [markerBlock_getElem, markedByte_zero past]

/-! ### The digest (42_finalize.md R136) -/

/-- Byte `4 j + k` of the digest is byte `k` of word `j`, the most significant being byte 0. -/
theorem serialize_getElem (x : HashWords) (j : Fin 8) (k : Fin 4) :
    (serialize x)[4 * j.val + k.val] = wordByte x[j] k.val := by
  have word : (4 * j.val + k.val) / 4 = j.val := by omega
  have byte : (4 * j.val + k.val) % 4 = k.val := by omega
  simp [serialize, word, byte]

/-- Settles O26: the bytes of each word, and of them the first and the last. -/
theorem digestBytes : Obligations.DigestBytes := by
  unfold Obligations.DigestBytes
  exact ⟨serialize_getElem, fun x => ⟨serialize_getElem x 0 0, serialize_getElem x 7 3⟩⟩

end Sys2Proof.Machine
end

section
/-! PROOFS. The faulted engine (60_exceptions.md R152, R155): it rejects every command and keeps every element until a
reset. -/

namespace Sys2Proof.Machine

/-! ### Rejection (60_exceptions.md R152) -/

/-- The answer of a faulted engine, written out. -/
theorem reject_of_phase_faulted {s : State} (p : s.phase = .faulted) :
    s.reject = { s with
      out := s.out ++ [.response { ok := false, status := s.faultCode.code ++ 0#2 ++ 3#2, digest := none }] } := by
  rw [State.reject, State.respond, status_of_phase_faulted p, State.emit]

theorem step_of_command_faulted {s : State} {w : CmdWord} {rest : List HostAction} (p : s.phase = .faulted)
    (given : s.host = .command w :: rest) : step s = .next (State.reject { s with host := rest }) :=
  step_next_iff.mpr (.commanded w rest _ given (.rejected p))

/-- Settles O30: the outcome of any word in FAULTED is the rejection. -/
theorem faultedEngineRejects : Obligations.FaultedEngineRejects := by
  unfold Obligations.FaultedEngineRejects
  intro s w rest p given
  exact (step_of_command_faulted p given).trans (congrArg _ (reject_of_phase_faulted p))

/-! ### Persistence (60_exceptions.md R155) -/

/-- The registers of the engine hold in `t` what they hold in `s`; the two ends of the command interface may differ. -/
structure SameElements (s t : State) : Prop where
  phase     : t.phase = s.phase
  faultCode : t.faultCode = s.faultCode
  h         : t.h = s.h
  buf       : t.buf = s.buf
  bufLen    : t.bufLen = s.bufLen
  totalBits : t.totalBits = s.totalBits

theorem SameElements.refl (s : State) : SameElements s s := ⟨rfl, rfl, rfl, rfl, rfl, rfl⟩

theorem SameElements.trans {s t u : State} (first : SameElements s t) (second : SameElements t u) :
    SameElements s u where
  phase     := second.phase.trans first.phase
  faultCode := second.faultCode.trans first.faultCode
  h         := second.h.trans first.h
  buf       := second.buf.trans first.buf
  bufLen    := second.bufLen.trans first.bufLen
  totalBits := second.totalBits.trans first.totalBits

/-- A step of a faulted engine that takes no reset does not stop and changes no register. -/
theorem step_faulted_sameElements {s : State} (p : s.phase = .faulted) (noReset : ∀ rest, s.host ≠ .reset :: rest) :
    ∃ t, step s = .next t ∧ SameElements s t := by
  cases given : s.host with
  | nil => exact ⟨s, step_of_nothing given, .refl s⟩
  | cons a rest =>
    cases a with
    | command w => exact ⟨_, step_of_command_faulted p given, rfl, rfl, rfl, rfl, rfl, rfl⟩
    | reset => exact absurd given (noReset rest)
    | sampleStatus => exact ⟨_, step_next_iff.mpr (.sampled rest given), rfl, rfl, rfl, rfl, rfl, rfl⟩

theorem run_faulted_sameElements {n : Nat} {s : State} (p : s.phase = .faulted) (free : NoReset n s.host) :
    ∃ t, run n s = .next t ∧ SameElements s t := by
  induction n generalizing s with
  | zero => exact ⟨s, run_zero s, .refl s⟩
  | succ n ih =>
    obtain ⟨u, first, same⟩ := step_faulted_sameElements p free.head
    obtain ⟨t, more, same'⟩ := ih (same.phase.trans p) (step_host first ▸ free.tail)
    exact ⟨t, (run_succ first).trans more, same.trans same'⟩

/-- Settles O32, by induction on the number of steps: each of them changes no register. -/
theorem faultsStayUntilReset : Obligations.FaultsStayUntilReset := by
  unfold Obligations.FaultsStayUntilReset
  intro n s p free
  obtain ⟨t, whole, same⟩ := run_faulted_sameElements p free
  exact ⟨t, whole, same.phase.trans p, same.faultCode, same.h, same.buf, same.bufLen, same.totalBits⟩

end Sys2Proof.Machine
end

section
/-! PROOFS. The usage faults (60_exceptions.md R150, R151, R153, R154). A command given to an engine that is not faulted
meets the cause of a usage fault, and the step is the entry into that fault; or it passes the checks, and under the
invariant it is performed. -/

namespace Sys2Proof.Machine

/-- Settles O31: of the ways a step treats FAULT_CODE, only the raising of a usage fault enters FAULTED. -/
theorem faultsArePrecise : Obligations.FaultsArePrecise := by
  unfold Obligations.FaultsArePrecise
  intro s t w rest p given taken faulted
  cases step_faultCode taken with
  | cleared _ reset _ _ => simp [given] at reset
  | kept phase _ => exact absurd (phase.mp faulted) p
  | raised w' rest' code given' _ notNone entry =>
    obtain ⟨-, rfl⟩ : w = w' ∧ rest = rest' := by simpa [given] using given'
    exact ⟨code, notNone, entry⟩

/-! ### Causes (60_exceptions.md R150) -/

/-- The commands that need a message in progress: UPDATE and FINALIZE. -/
def NeedsMessage (c : Command) : Prop := (∃ b, c = .instr (.update b)) ∨ c = .instr .finalize

/-- These are the legal commands other than INIT. -/
theorem needsMessage_iff (c : Command) : NeedsMessage c ↔ ∃ i, c = .instr i ∧ i ≠ .init := by
  constructor
  · rintro (⟨b, rfl⟩ | rfl)
    · exact ⟨.update b, rfl, by simp⟩
    · exact ⟨.finalize, rfl, by simp⟩
  · rintro ⟨i, rfl, notInit⟩
    cases i with
    | init => exact absurd rfl notInit
    | update b => exact .inl ⟨b, rfl⟩
    | finalize => exact .inr rfl

/-- The cause of each usage fault, for the decoded word `c` given in state `s`. -/
def FaultCause (c : Command) (s : State) : FaultCode → Prop
  | .none => False
  | .illegalCommand => c = .illegal
  | .notInitialized => s.phase = .idle ∧ NeedsMessage c
  | .afterFinalize => s.phase = .done ∧ NeedsMessage c
  | .lengthOverflow => s.phase = .active ∧ (∃ b, c = .instr (.update b)) ∧ s.totalBits = some lastTotalBits

/-- The command `i` passes every check of R151 in state `s`. -/
structure PassesChecks (i : Instr) (s : State) : Prop where
  unfaulted : s.phase ≠ .faulted
  active    : i ≠ .init → s.phase = .active
  room      : ∀ b, i = .update b → s.totalBits ≠ some lastTotalBits

theorem faultCause_or_passesChecks (c : Command) {s : State} (p : s.phase ≠ .faulted) :
    (∃ code, FaultCause c s code) ∨ ∃ i, c = .instr i ∧ PassesChecks i s := by
  cases c with
  | illegal => exact .inl ⟨.illegalCommand, rfl⟩
  | instr i =>
    by_cases isInit : i = .init
    · subst isInit
      exact .inr ⟨.init, rfl, p, by simp, by simp⟩
    have needs := (needsMessage_iff (.instr i)).mpr ⟨i, rfl, isInit⟩
    cases phase : s.phase with
    | faulted => exact absurd phase p
    | idle => exact .inl ⟨.notInitialized, phase, needs⟩
    | done => exact .inl ⟨.afterFinalize, phase, needs⟩
    | active =>
      by_cases full : (∃ b, i = .update b) ∧ s.totalBits = some lastTotalBits
      · obtain ⟨⟨b, rfl⟩, full⟩ := full
        exact .inl ⟨.lengthOverflow, phase, ⟨b, rfl⟩, full⟩
      · exact .inr ⟨i, rfl, p, fun _ => phase, fun b update last => full ⟨⟨b, update⟩, last⟩⟩

/-! ### The step of each case (60_exceptions.md R151) -/

/-- A legal word given to an engine that is not faulted: the step is the command's meaning. -/
theorem step_of_instr_word {s : State} {w : CmdWord} {rest : List HostAction} {i : Instr} (p : s.phase ≠ .faulted)
    (given : s.host = .command w :: rest) (d : decode w = .instr i) : step s = exec i { s with host := rest } := by
  rw [step_of_action given, performAction_command, performCommand, if_neg p, d]

theorem exec_of_idle {i : Instr} {s : State} (notInit : i ≠ .init) (p : s.phase = .idle) :
    exec i s = .next (faultedAs .notInitialized s) := by
  cases i with
  | init => exact absurd rfl notInit
  | update b => exact exec_update_of_idle b p
  | finalize => exact exec_finalize_of_idle p

theorem exec_of_done {i : Instr} {s : State} (notInit : i ≠ .init) (p : s.phase = .done) :
    exec i s = .next (faultedAs .afterFinalize s) := by
  cases i with
  | init => exact absurd rfl notInit
  | update b => exact exec_update_of_done b p
  | finalize => exact exec_finalize_of_done p

/-- The cause of a usage fault decides the step: it is the entry into that fault. -/
theorem step_of_faultCause {s : State} {w : CmdWord} {rest : List HostAction} {code : FaultCode}
    (p : s.phase ≠ .faulted) (given : s.host = .command w :: rest) (cause : FaultCause (decode w) s code) :
    step s = .next (faultedAs code { s with host := rest }) := by
  cases code with
  | none => exact cause.elim
  | illegalCommand => exact step_of_illegal_word given cause p
  | notInitialized =>
    obtain ⟨phase, needs⟩ := cause
    obtain ⟨i, d, notInit⟩ := (needsMessage_iff _).mp needs
    exact (step_of_instr_word p given d).trans (exec_of_idle notInit phase)
  | afterFinalize =>
    obtain ⟨phase, needs⟩ := cause
    obtain ⟨i, d, notInit⟩ := (needsMessage_iff _).mp needs
    exact (step_of_instr_word p given d).trans (exec_of_done notInit phase)
  | lengthOverflow =>
    obtain ⟨phase, ⟨b, d⟩, full⟩ := cause
    exact (step_of_instr_word p given d).trans
      ((exec_update_overflows_iff b (s := { s with host := rest }) phase).mpr full)

theorem exec_finalize_active {s t : State} (p : s.phase = .active) (run : exec .finalize s = .next t) :
    t.phase = .done := by
  cases execFinalize_next_iff.mp run with
  | rejected p' | notInitialized p' | afterFinalize p' => simp [p] at p'
  | ended => simp

/-- A command that passes the checks does not end faulted. -/
theorem PassesChecks.exec_unfaulted {i : Instr} {s t : State} (pass : PassesChecks i s) (run : exec i s = .next t) :
    t.phase ≠ .faulted := by
  cases i with
  | init =>
    rw [exec_init_of_not_faulted pass.unfaulted] at run
    cases run
    simp
  | update b =>
    obtain ⟨full, -⟩ | ⟨phase, -⟩ := exec_update_active_cases (pass.active (by simp)) run
    · exact absurd full (pass.room b rfl)
    · simp [phase]
  | finalize => simp [exec_finalize_active (pass.active (by simp)) run]

/-! ### Completion (10_state.md R34, 60_exceptions.md R151) -/

/-- The invariant is about the registers, not about the actions to come. -/
theorem EngineInv.withHost {s : State} (inv : EngineInv s) (rest : List HostAction) :
    EngineInv { s with host := rest } where
  coded := inv.coded
  idle p :=
    have ⟨h, buf, bufLen, totalBits⟩ := inv.idle p
    ⟨h, buf, bufLen, totalBits⟩
  active p :=
    have ⟨hashed, counted⟩ := inv.active p
    ⟨hashed, counted⟩
  done p :=
    have ⟨h, buf, bufLen, totalBits⟩ := inv.done p
    ⟨h, buf, bufLen, totalBits⟩

theorem EngineInv.faultCode_of_unfaulted {s : State} (inv : EngineInv s) (p : s.phase ≠ .faulted) :
    s.faultCode = .none :=
  not_not.mp (mt inv.coded.mpr p)

/-- While a message is in progress every element that UPDATE reads holds a value. -/
theorem Live.exec_update {s : State} (live : Live s) (p : s.phase = .active) (b : Byte) :
    ∃ t, exec (.update b) s = .next t := by
  obtain ⟨x, hash⟩ := Option.ne_none_iff_exists'.mp live.hashed
  obtain ⟨n, l, len, total, -⟩ := live.counted
  by_cases full : l = lastTotalBits
  · exact ⟨_, execUpdate_next_iff.mpr (.overflowed p (full ▸ total))⟩
  by_cases last : n = 63
  · subst last
    obtain ⟨blk, read⟩ := live.readBlock b len
    exact ⟨_, execUpdate_next_iff.mpr (.drained l x blk p total full len hash read)⟩
  · exact ⟨_, execUpdate_next_iff.mpr (.appended l n p total full len last)⟩

/-- While a message is in progress every element that FINALIZE reads holds a value. -/
theorem Live.exec_finalize {s : State} (live : Live s) (p : s.phase = .active) : ∃ t, exec .finalize s = .next t := by
  obtain ⟨x, hash⟩ := Option.ne_none_iff_exists'.mp live.hashed
  obtain ⟨n, l, len, total, -⟩ := live.counted
  obtain ⟨r, read⟩ := live.readPrefix len
  exact ⟨_, execFinalize_next_iff.mpr (.ended n l r x _ p len total read hash rfl)⟩

/-- Under the invariant a command that passes the checks reads no element without a value. -/
theorem PassesChecks.exec_completes {i : Instr} {s : State} (pass : PassesChecks i s) (inv : EngineInv s) :
    ∃ t, exec i s = .next t := by
  cases i with
  | init => exact ⟨_, exec_init_of_not_faulted pass.unfaulted⟩
  | update b =>
    have p := pass.active (by simp)
    exact (inv.active p).exec_update p b
  | finalize =>
    have p := pass.active (by simp)
    exact (inv.active p).exec_finalize p

theorem PassesChecks.withHost {i : Instr} {s : State} (pass : PassesChecks i s) (rest : List HostAction) :
    PassesChecks i { s with host := rest } := ⟨pass.unfaulted, pass.active, pass.room⟩

/-- Under the invariant a step that takes a command which passes the checks completes and does not fault. -/
theorem PassesChecks.step_completes {i : Instr} {s : State} {w : CmdWord} {rest : List HostAction}
    (pass : PassesChecks i s) (given : s.host = .command w :: rest) (d : decode w = .instr i) (inv : EngineInv s) :
    ∃ t, step s = .next t ∧ t.phase ≠ .faulted := by
  obtain ⟨t, run⟩ := (pass.withHost rest).exec_completes (inv.withHost rest)
  exact ⟨t, (step_of_instr_word pass.unfaulted given d).trans run, (pass.withHost rest).exec_unfaulted run⟩

/-- Under the invariant every command completes. -/
theorem step_of_command_completes {s : State} {w : CmdWord} {rest : List HostAction} (inv : EngineInv s)
    (given : s.host = .command w :: rest) : ∃ t, step s = .next t := by
  by_cases p : s.phase = .faulted
  · exact ⟨_, step_of_command_faulted p given⟩
  obtain ⟨code, cause⟩ | ⟨i, d, pass⟩ := faultCause_or_passesChecks (decode w) p
  · exact ⟨_, step_of_faultCause p given cause⟩
  · obtain ⟨t, taken, -⟩ := pass.step_completes given d inv
    exact ⟨t, taken⟩

/-- Settles O28: rejection, the step of each fault's cause, and completion of a command that passes the checks. -/
theorem checkingOrder : Obligations.CheckingOrder := by
  unfold Obligations.CheckingOrder
  intro s w rest given
  refine ⟨fun p => faultedEngineRejects s w rest p given, fun p d => step_of_illegal_word given d p,
    fun i d notInit => ⟨fun p => ?_, fun p => ?_⟩, fun b d p full => ?_, fun i d p active room => ?_,
    fun inv => step_of_command_completes inv given⟩
  · exact (step_of_instr_word (by simp [p]) given d).trans (exec_of_idle notInit p)
  · exact (step_of_instr_word (by simp [p]) given d).trans (exec_of_done notInit p)
  · exact step_of_faultCause (code := .lengthOverflow) (by simp [p]) given ⟨p, ⟨b, d⟩, full⟩
  · have pass : PassesChecks i s := ⟨p, active, room⟩
    exact ⟨step_of_instr_word p given d, pass.step_completes given d⟩

/-- Under the invariant a command of an engine that is not faulted leaves a fault's code exactly when it meets that
fault's cause. -/
theorem step_faultCode_eq_iff {s t : State} {w : CmdWord} {rest : List HostAction} {code : FaultCode}
    (inv : EngineInv s) (p : s.phase ≠ .faulted) (given : s.host = .command w :: rest) (taken : step s = .next t)
    (fault : code ≠ .none) : t.faultCode = code ↔ FaultCause (decode w) s code := by
  constructor
  · rintro rfl
    obtain ⟨code, cause⟩ | ⟨i, d, pass⟩ := faultCause_or_passesChecks (decode w) p
    · rw [step_of_faultCause p given cause] at taken
      cases taken
      exact cause
    · rw [step_of_instr_word p given d] at taken
      have unfaulted := (pass.withHost rest).exec_unfaulted taken
      obtain ⟨-, kept⟩ | ⟨_, -, rfl⟩ := exec_keeps_or_faults (s := { s with host := rest }) p taken
      · exact absurd (kept.trans (inv.faultCode_of_unfaulted p)) fault
      · exact absurd (State.raiseUsageFault_phase _ _) unfaulted
  · intro cause
    rw [step_of_faultCause p given cause] at taken
    cases taken
    exact faultedAs_faultCode _ _

/-- Settles O29: `step_faultCode_eq_iff` for each of the four faults, its cause written out. -/
theorem faultCausesAndCodes : Obligations.FaultCausesAndCodes := by
  unfold Obligations.FaultCausesAndCodes
  refine ⟨⟨rfl, rfl, rfl, rfl, rfl⟩, fun s t w rest inv p given taken => ?_⟩
  have code_iff {code : FaultCode} (fault : code ≠ .none) := step_faultCode_eq_iff inv p given taken fault
  exact ⟨code_iff (by decide), code_iff (by decide), code_iff (by decide), code_iff (by decide)⟩

end Sys2Proof.Machine
end

section
/-! PROOFS. Reset (70_reset_and_hazards.md R170, R172): the values it leaves, the usage fault of a command that needs a
message right after it, and that nothing else leaves FAULTED. -/

namespace Sys2Proof

/-- The word of a command decodes to that command (30_encoding.md R61, R62). -/
@[simp] theorem decode_encode (i : Instr) : decode (encode i) = .instr i := by
  cases i with
  | init => rfl
  | update b => simp [decode, encode]
  | finalize => rfl

end Sys2Proof

namespace Sys2Proof.Machine

@[simp] theorem State.hostReset_status (s : State) : s.hostReset.status = 0x00 := by
  rw [status_of_phase_idle (State.hostReset_phase s), State.hostReset_faultCode]
  decide

/-- Settles O1: each value from the definition of the reset state, those of BUF byte by byte. -/
theorem resetStateValues : Obligations.ResetStateValues := by
  unfold Obligations.ResetStateValues
  exact ⟨rfl, rfl, rfl, rfl, valuelessBuf_getElem, rfl, rfl⟩

/-- An UPDATE or FINALIZE given to an idle engine raises NOT_INITIALIZED. -/
theorem step_of_needsMessage_idle {s : State} {i : Instr} {rest : List HostAction} (p : s.phase = .idle)
    (given : s.host = .command (encode i) :: rest) (notInit : i ≠ .init) :
    step s = .next (faultedAs .notInitialized { s with host := rest }) := by
  have needs : NeedsMessage (decode (encode i)) := (needsMessage_iff _).mpr ⟨i, decode_encode i, notInit⟩
  exact step_of_faultCause (code := .notInitialized) (by simp [p]) given ⟨p, needs⟩

/-- The only action that takes an engine out of FAULTED is a reset (60_exceptions.md R155). -/
theorem action_eq_reset_of_leaves_faulted {s t : State} {a : HostAction} {rest : List HostAction}
    (p : s.phase = .faulted) (given : s.host = a :: rest) (taken : step s = .next t) (left : t.phase ≠ .faulted) :
    a = .reset := by
  by_contra notReset
  have noReset (rest' : List HostAction) : s.host ≠ .reset :: rest' := by simp [given, notReset]
  exact left (step_faulted_keeps taken p noReset).1

/-- Settles O2: the state after the step is `State.hostReset`, which is idle and so refuses UPDATE and FINALIZE. -/
theorem hostResetFromEveryState : Obligations.HostResetFromEveryState := by
  unfold Obligations.HostResetFromEveryState
  refine ⟨fun s rest given => ?_, fun s t a rest => action_eq_reset_of_leaves_faulted⟩
  have taken : step s = .next (State.hostReset { s with host := rest }) := step_next_iff.mpr (.reset rest given)
  refine ⟨_, taken, rfl, State.hostReset_status _, fun i more notInit given' => ?_⟩
  exact step_of_needsMessage_idle (State.hostReset_phase _) given' notInit

end Sys2Proof.Machine
end

section
/-! PROOFS. The encoding both ways (30_encoding.md R60 to R65): the word of a command is the only one that decodes to it,
and a step that takes the word of a command is its meaning. -/

namespace Sys2Proof

/-- A word whose OP and DATA fields are known. -/
theorem word_eq_append {w : CmdWord} {op data : Byte} (opEq : opField w = op) (dataEq : dataField w = data) :
    w = op ++ data := by
  rw [← opField_append_dataField w, opEq, dataEq]

/-- Only the word of a command decodes to it: the fields that the decoder tests are the whole word. -/
theorem eq_encode_of_decode {w : CmdWord} {i : Instr} (d : decode w = .instr i) : w = encode i := by
  unfold decode at d
  split at d
  next op =>
    split at d
    next data =>
      cases d
      exact word_eq_append op data
    next => cases d
  next =>
    split at d
    next op =>
      cases d
      exact word_eq_append op rfl
    next =>
      split at d
      next op =>
        split at d
        next data =>
          cases d
          exact word_eq_append op data
        next => cases d
      next => cases d

theorem decode_eq_instr_iff (w : CmdWord) (i : Instr) : decode w = .instr i ↔ w = encode i :=
  ⟨eq_encode_of_decode, fun word => word ▸ decode_encode i⟩

/-- Settles O8: `decode_encode` one way, the fields of the word the other. -/
theorem decodeEncodeInverse : Obligations.DecodeEncodeInverse := by
  unfold Obligations.DecodeEncodeInverse
  exact decode_eq_instr_iff

/-- Settles O10: the legal words are those of the encoder, the others are none of R63's legal numbers. -/
theorem tableWordsDecode : Obligations.TableWordsDecode := by
  unfold Obligations.TableWordsDecode
  simp only [decode_eq_instr_iff, decode_eq_illegal_iff]
  decide

end Sys2Proof

namespace Sys2Proof.Machine

/-- Settles O11: in FAULTED both the step and the meaning reject; elsewhere the step is the meaning. -/
theorem stepRunsTheDecodedCommand : Obligations.StepRunsTheDecodedCommand := by
  unfold Obligations.StepRunsTheDecodedCommand
  intro s w rest i given d
  by_cases p : s.phase = .faulted
  · exact (step_of_command_faulted p given).trans (exec_of_faulted i (s := { s with host := rest }) p).symm
  · exact step_of_instr_word p given d

/-! ### The assembler (30_encoding.md R66, R67) -/

theorem assembleLine_of_not_wf {line : AsmLine} (bad : line.wf = false) : assembleLine line = none := by
  simp [assembleLine, bad]

theorem assembleLine_update {v : Nat} (byte : v < 256) :
    assembleLine (.update v) = some [present (.update (BitVec.ofNat 8 v))] := by
  simp [assembleLine, AsmLine.wf, byte]

theorem assembleLine_word {v : Nat} (fits : v < 65536) :
    assembleLine (.word v) = some [.command (BitVec.ofNat 16 v)] := by
  simp [assembleLine, AsmLine.wf, fits]

theorem assembleLine_updateBytes {vs : List Nat} (bytes : ∀ v ∈ vs, v < 256) :
    assembleLine (.updateBytes vs) = some (vs.map fun v => present (.update (BitVec.ofNat 8 v))) := by
  have good : AsmLine.wf (.updateBytes vs) = true := by simpa [AsmLine.wf] using bytes
  simp [assembleLine, good]

/-- UPDATE's word as a number: OP 0x02 above the byte. -/
theorem encode_update_eq_or {v : Nat} (byte : v < 256) :
    encode (.update (BitVec.ofNat 8 v)) = 0x0200 ||| BitVec.ofNat 16 v := by
  have low : (BitVec.ofNat 8 v).toNat = v := Nat.mod_eq_of_lt byte
  apply BitVec.eq_of_toNat_eq
  calc (encode (.update (BitVec.ofNat 8 v))).toNat
      = (0x02#8).toNat <<< 8 ||| (BitVec.ofNat 8 v).toNat := BitVec.toNat_append _ _
    _ = 0x0200 ||| v := by rw [low]; rfl
    _ = (0x0200 ||| BitVec.ofNat 16 v).toNat := by simp [Nat.mod_eq_of_lt (show v < 65536 by omega)]

/-- Settles O12: a line whose number is in range, then the two whose number is not. -/
theorem assembledLines : Obligations.AssembledLines := by
  unfold Obligations.AssembledLines
  refine ⟨rfl, rfl, rfl, fun v byte => ?_, fun v fits => ⟨_, assembleLine_word fits, ?_⟩, fun v large => ?_,
    fun v large => ?_⟩
  · rw [assembleLine_update byte, present, encode_update_eq_or byte]
  · rw [BitVec.toNat_ofNat, Nat.mod_eq_of_lt fits]
  · exact assembleLine_of_not_wf (by simpa [AsmLine.wf] using large)
  · exact assembleLine_of_not_wf (by simpa [AsmLine.wf] using large)

theorem assemble_singleton (line : AsmLine) : assemble [line] = assembleLine line := by
  cases one : assembleLine line <;> simp [assemble, one]

/-- Lines that each assemble make a program that does: the actions of the lines, one after the other. -/
theorem assemble_map {α : Type} {line : α → AsmLine} {actions : α → List HostAction} {xs : List α}
    (each : ∀ x ∈ xs, assembleLine (line x) = some (actions x)) :
    assemble (xs.map line) = some (xs.flatMap actions) := by
  induction xs with
  | nil => rfl
  | cons x xs ih =>
    obtain ⟨first, others⟩ := List.forall_mem_cons.mp each
    simp [assemble, first, ih others]

/-- Settles O13: each of the three programs assembles to the UPDATEs of the bytes in order. -/
theorem piecesAssembleAsTheWhole : Obligations.PiecesAssembleAsTheWhole := by
  unfold Obligations.PiecesAssembleAsTheWhole
  intro pieces bytes
  have bytes' : ∀ v ∈ pieces.flatten, v < 256 :=
    fun v inWhole => have ⟨piece, listed, inPiece⟩ := List.mem_flatten.mp inWhole; bytes piece listed v inPiece
  have inPieces := assemble_map fun piece listed => assembleLine_updateBytes (bytes piece listed)
  have whole := assembleLine_updateBytes bytes'
  have byByte := assemble_map fun v inWhole => assembleLine_update (bytes' v inWhole)
  rw [List.flatMap_def, ← List.map_flatten] at inPieces
  rw [← assemble_singleton] at whole
  rw [← List.map_eq_flatMap] at byByte
  exact ⟨inPieces.trans whole.symm, whole.trans byByte.symm, byByte⟩

end Sys2Proof.Machine
end

section
/-! PROOFS. The invariant (10_state.md R21 to R26, R34): it speaks of the registers only, it holds of every way in which a
command can end, and under it no step stops. -/

namespace Sys2Proof.Machine

/-! ### The invariant in each phase -/

theorem Valueless.engineInv {s : State} (valueless : Valueless s) (p : s.phase = .idle) (clear : s.faultCode = .none) :
    EngineInv s :=
  ⟨by simp [p, clear], fun _ => valueless, by simp [p], by simp [p]⟩

theorem Live.engineInv {s : State} (live : Live s) (p : s.phase = .active) (clear : s.faultCode = .none) :
    EngineInv s :=
  ⟨by simp [p, clear], by simp [p], fun _ => live, by simp [p]⟩

theorem Spent.engineInv {s : State} (spent : Spent s) (p : s.phase = .done) (clear : s.faultCode = .none) :
    EngineInv s :=
  ⟨by simp [p, clear], by simp [p], by simp [p], fun _ => spent⟩

theorem engineInv_of_faulted {s : State} (p : s.phase = .faulted) (code : s.faultCode ≠ .none) : EngineInv s :=
  ⟨by simp [p, code], by simp [p], by simp [p], by simp [p]⟩

/-- The invariant is about the registers only. -/
theorem EngineInv.of_sameElements {s t : State} (inv : EngineInv s) (same : SameElements s t) : EngineInv t where
  coded := by rw [same.phase, same.faultCode]; exact inv.coded
  idle p :=
    have ⟨h, buf, bufLen, totalBits⟩ := inv.idle (same.phase ▸ p)
    ⟨same.h.trans h, same.buf.trans buf, same.bufLen.trans bufLen, same.totalBits.trans totalBits⟩
  active p := by
    obtain ⟨hashed, n, l, len, total, bytes, count, filled⟩ := inv.active (same.phase ▸ p)
    rw [← same.buf] at filled
    exact ⟨same.h ▸ hashed, n, l, same.bufLen.trans len, same.totalBits.trans total, bytes, count, filled⟩
  done p :=
    have ⟨h, buf, bufLen, totalBits⟩ := inv.done (same.phase ▸ p)
    ⟨same.h ▸ h, same.buf.trans buf, same.bufLen.trans bufLen, same.totalBits.trans totalBits⟩

/-- Reset makes the invariant hold, whatever the state before it. -/
theorem engineInv_hostReset (s : State) : EngineInv s.hostReset :=
  Valueless.engineInv ⟨rfl, rfl, rfl, rfl⟩ rfl rfl

/-- Settles O36: the reset state is idle and holds nothing. -/
theorem engineInvAtReset : Obligations.EngineInvAtReset := engineInv_hostReset State.reset

/-! ### What a command leaves (10_state.md R23, R24, 41_init_update.md R111 to R115) -/

theorem live_startMessage (s : State) : Live s.startMessage :=
  ⟨by simp, 0, 0, rfl, rfl, rfl, rfl, fun i below => absurd below (Nat.not_lt_zero i.val)⟩

theorem spent_endMessage (y : HashWords) (s : State) : Spent (s.endMessage y) := ⟨by simp, rfl, rfl, rfl⟩

/-- BUF_LEN stays the remainder of the byte count while the buffer is not filled. -/
theorem bufLen_succ_count {n : BitVec 6} {l : BitCount} (bytes : l.toNat % 8 = 0) (room : l ≠ lastTotalBits)
    (more : n ≠ 63) (count : n.toNat = l.toNat / 8 % 64) :
    (n + 1).toNat = n.toNat + 1 ∧ (n + 1).toNat = (l + 8).toNat / 8 % 64 := by
  have sum := toNat_add_eight bytes room
  have small : n.toNat ≠ 63 := fun full => more (BitVec.eq_of_toNat_eq full)
  have next : (n + 1).toNat = n.toNat + 1 := BitVec.toNat_add_of_lt (show n.toNat + 1 < 64 by omega)
  omega

/-- An UPDATE that does not fill the buffer keeps the HashState of a message in progress. -/
theorem Live.append {s : State} (live : Live s) (b : Byte) {n : BitVec 6} {l : BitCount} (len : s.bufLen = some n)
    (total : s.totalBits = some l) (room : l ≠ lastTotalBits) (more : n ≠ 63) :
    Live { s.appendByte b n l with bufLen := some (n + 1) } := by
  obtain ⟨hashed, n', l', len', total', bytes, count, filled⟩ := live
  obtain rfl : n = n' := Option.some.inj (len.symm.trans len')
  obtain rfl : l = l' := Option.some.inj (total.symm.trans total')
  have sum := toNat_add_eight bytes room
  obtain ⟨next, count'⟩ := bufLen_succ_count bytes room more count
  refine ⟨hashed, n + 1, l + 8, rfl, rfl, by omega, count', fun i below => ?_⟩
  by_cases last : i.val = n.toNat
  · obtain rfl : i = ⟨n.toNat, n.isLt⟩ := Fin.ext last
    simp
  · have kept : (writeByte s.buf n b)[i] = s.buf[i] := writeByte_other s.buf n b i last
    simpa [kept] using filled i (by omega)

/-- The UPDATE of the 64th byte leaves an empty buffer and a count of whole blocks. -/
theorem Live.drain {s : State} (live : Live s) (b : Byte) {l : BitCount} (y : HashWords) (len : s.bufLen = some 63)
    (total : s.totalBits = some l) (room : l ≠ lastTotalBits) :
    Live { s.appendByte b 63 l with h := some y, bufLen := some 0 } := by
  obtain ⟨-, n, l', len', total', bytes, count, -⟩ := live
  obtain rfl : 63 = n := Option.some.inj (len.symm.trans len')
  obtain rfl : l = l' := Option.some.inj (total.symm.trans total')
  have sum := toNat_add_eight bytes room
  have full : l.toNat / 8 % 64 = 63 := count.symm
  have empty : 0 = (l + 8).toNat / 8 % 64 := by omega
  exact ⟨by simp, 0, l + 8, rfl, rfl, by omega, empty, fun i below => absurd below (Nat.not_lt_zero i.val)⟩

/-! ### Steps -/

/-- A usage fault makes the invariant hold: FAULTED with a code. -/
theorem engineInv_raiseUsageFault {code : FaultCode} (fault : code ≠ .none) (s : State) :
    EngineInv (s.raiseUsageFault code) := engineInv_of_faulted rfl fault

theorem EngineInv.reject {s : State} (inv : EngineInv s) : EngineInv s.reject :=
  inv.of_sameElements ⟨rfl, rfl, rfl, rfl, rfl, rfl⟩

theorem EngineInv.respond {s : State} (inv : EngineInv s) (ok : Bool) (d : Option Digest) :
    EngineInv (s.respond ok d) :=
  inv.of_sameElements ⟨rfl, rfl, rfl, rfl, rfl, rfl⟩

theorem exec_keeps_engineInv {i : Instr} {s t : State} (inv : EngineInv s) (run : exec i s = .next t) :
    EngineInv t := by
  have outcome := exec_next_iff.mp run
  cases i with
  | init =>
    cases outcome with
    | rejected _ => exact inv.reject
    | started p => exact ((live_startMessage s).engineInv rfl (inv.faultCode_of_unfaulted p)).respond _ _
  | update b =>
    cases outcome with
    | rejected _ => exact inv.reject
    | notInitialized _ | afterFinalize _ | overflowed _ _ => exact engineInv_raiseUsageFault (by decide) s
    | appended l n p total room len more =>
      have clear := inv.faultCode_of_unfaulted (by simp [p])
      exact (((inv.active p).append b len total room more).engineInv p clear).respond _ _
    | drained l x blk p total room len _ _ =>
      have clear := inv.faultCode_of_unfaulted (by simp [p])
      exact (((inv.active p).drain b (compress x blk) len total room).engineInv p clear).respond _ _
  | finalize =>
    cases outcome with
    | rejected _ => exact inv.reject
    | notInitialized _ | afterFinalize _ => exact engineInv_raiseUsageFault (by decide) s
    | ended n l r x y p _ _ _ _ _ =>
      have clear := inv.faultCode_of_unfaulted (by simp [p])
      exact ((spent_endMessage y s).engineInv rfl clear).respond _ _

/-- Settles O37: by the ways in which a step, a command and a meaning can end. -/
theorem everyStepKeepsEngineInv : Obligations.EveryStepKeepsEngineInv := by
  unfold Obligations.EveryStepKeepsEngineInv
  intro s t inv taken
  cases step_next_iff.mp taken with
  | waited _ => exact inv
  | reset rest _ => exact engineInv_hostReset _
  | sampled rest _ => exact inv.of_sameElements ⟨rfl, rfl, rfl, rfl, rfl, rfl⟩
  | commanded w rest t _ outcome =>
    have inv' := inv.withHost rest
    cases outcome with
    | rejected _ => exact inv'.reject
    | illegal _ _ => exact engineInv_raiseUsageFault (by decide) _
    | performed i t _ _ run => exact exec_keeps_engineInv inv' run

/-- Settles O38: only a command can stop a step, and under the invariant none does. -/
theorem noStepReadsAValuelessElement : Obligations.NoStepReadsAValuelessElement := by
  unfold Obligations.NoStepReadsAValuelessElement
  intro s inv
  cases given : s.host with
  | nil => exact ⟨s, step_of_nothing given⟩
  | cons a rest =>
    cases a with
    | command w => exact step_of_command_completes inv given
    | reset => exact ⟨_, step_next_iff.mpr (.reset rest given)⟩
    | sampleStatus => exact ⟨_, step_next_iff.mpr (.sampled rest given)⟩

end Sys2Proof.Machine
end

section
/-! PROOFS. Whole messages (20_memory.md R43, R49; 41_init_update.md R111 to R115; 42_finalize.md R130 to R137). The
engine after `k` UPDATEs is `Absorbed` of their bytes; FINALIZE then compresses what is left of the padded message. -/

namespace Sys2Proof.Machine

/-! ### The blocks of a sequence that grows by a byte -/

theorem blocksOf_snoc_of_more {m : List Byte} (b : Byte) (more : m.length % 64 ≠ 63) :
    blocksOf (m ++ [b]) = blocksOf m := by
  have none : (m.length + 1) / 64 - m.length / 64 = 0 := by omega
  simp [blocksOf_append, none]

theorem blocksOf_snoc_of_full {m : List Byte} (b : Byte) (full : m.length % 64 = 63) :
    blocksOf (m ++ [b]) = blocksOf m ++ [blockAt (m ++ [b]) (m.length / 64)] := by
  have one : (m.length + 1) / 64 - m.length / 64 = 1 := by omega
  simp [blocksOf_append, one]

/-- A byte of the block that the byte `b` fills is the byte of the message, or `b` in the last place. -/
theorem blockAt_snoc_full {m : List Byte} (b : Byte) (full : m.length % 64 = 63) (i : Fin 64) :
    (blockAt (m ++ [b]) (m.length / 64))[i] =
      if i.val < 63 then m.getD (64 * (m.length / 64) + i.val) 0 else b := by
  simp only [blockAt, Fin.getElem_fin, Vector.getElem_ofFn]
  split
  next below => exact List.getD_append _ _ _ _ (by omega)
  next last =>
    have atEnd : 64 * (m.length / 64) + i.val = m.length := by omega
    simp [atEnd]

/-! ### INIT and UPDATE (41_init_update.md R111 to R115) -/

/-- Another response does not change what the engine has taken in. -/
theorem Absorbed.respond {m : List Byte} {s : State} (absorbed : Absorbed m s) (ok : Bool) (d : Option Digest) :
    Absorbed m (s.respond ok d) :=
  ⟨absorbed.phase, absorbed.h, absorbed.bufLen, absorbed.totalBits, absorbed.buf⟩

/-- Nor do the actions to come. -/
theorem Absorbed.withHost {m : List Byte} {s : State} (absorbed : Absorbed m s) (rest : List HostAction) :
    Absorbed m { s with host := rest } :=
  ⟨absorbed.phase, absorbed.h, absorbed.bufLen, absorbed.totalBits, absorbed.buf⟩

theorem absorbed_startMessage (s : State) : Absorbed [] s.startMessage :=
  ⟨rfl, rfl, rfl, rfl, fun j below => absurd below (Nat.not_lt_zero j.val)⟩

/-- The bit count goes up by 8 with each byte. -/
theorem bitCount_succ (n : Nat) : BitVec.ofNat 64 (8 * n) + 8 = BitVec.ofNat 64 (8 * (n + 1)) := by
  rw [Nat.mul_add, BitVec.ofNat_add]
  rfl

/-- An UPDATE that does not fill the buffer leaves its byte in BUF and the whole blocks as they are. -/
theorem Absorbed.append {m : List Byte} {s : State} (absorbed : Absorbed m s) (b : Byte) (more : m.length % 64 ≠ 63) :
    Absorbed (m ++ [b])
      { s.appendByte b (BitVec.ofNat 6 (m.length % 64)) (BitVec.ofNat 64 (8 * m.length)) with
        bufLen := some (BitVec.ofNat 6 (m.length % 64) + 1) } := by
  have length : (m ++ [b]).length = m.length + 1 := by simp
  have rem : (m.length + 1) % 64 = m.length % 64 + 1 := by omega
  have quot : (m.length + 1) / 64 = m.length / 64 := by omega
  have index : (BitVec.ofNat 6 (m.length % 64)).toNat = m.length % 64 := Nat.mod_eq_of_lt (by omega)
  refine ⟨absorbed.phase, ?_, ?_, ?_, fun j below => ?_⟩
  · rw [blocksOf_snoc_of_more b more]
    exact absorbed.h
  · rw [length, rem, BitVec.ofNat_add]
    rfl
  · rw [length, ← bitCount_succ]
    rfl
  rw [length, rem] at below
  rw [length, quot]
  by_cases last : j.val = m.length % 64
  · have written : (writeByte s.buf (BitVec.ofNat 6 (m.length % 64)) b)[j] = some b := by simp [writeByte, index, last]
    have atEnd : 64 * (m.length / 64) + j.val = m.length := by omega
    simpa [atEnd] using written
  · have kept : (writeByte s.buf (BitVec.ofNat 6 (m.length % 64)) b)[j] = s.buf[j] :=
      writeByte_other _ _ _ _ (by omega)
    rw [List.getD_append _ _ _ _ (by omega), ← absorbed.buf j (by omega)]
    exact kept

/-- The UPDATE of the 64th byte compresses the block it fills into H and leaves an empty buffer. -/
theorem Absorbed.drain {m : List Byte} {s : State} (absorbed : Absorbed m s) (b : Byte) (full : m.length % 64 = 63) :
    Absorbed (m ++ [b])
      { s.appendByte b 63 (BitVec.ofNat 64 (8 * m.length)) with
        h := some (compress ((blocksOf m).foldl compress iv) (blockAt (m ++ [b]) (m.length / 64)))
        bufLen := some 0 } := by
  have length : (m ++ [b]).length = m.length + 1 := by simp
  have rem : (m.length + 1) % 64 = 0 := by omega
  refine ⟨absorbed.phase, ?_, ?_, ?_, fun j below => ?_⟩
  · rw [blocksOf_snoc_of_full b full, List.foldl_append, List.foldl_cons, List.foldl_nil]
  · rw [length, rem]
    rfl
  · rw [length, ← bitCount_succ]
    rfl
  · rw [length, rem] at below
    exact absurd below (Nat.not_lt_zero j.val)

theorem Absorbed.exec_update {m : List Byte} {s : State} (absorbed : Absorbed m s) (b : Byte)
    (fits : m.length + 1 < 2 ^ 61) : ∃ t, exec (.update b) s = .next t ∧ Absorbed (m ++ [b]) t := by
  have room : BitVec.ofNat 64 (8 * m.length) ≠ lastTotalBits := by
    intro last
    have atLimit := (absorbed.totalBits_eq_last_iff (by omega)).mp (last ▸ absorbed.totalBits)
    omega
  by_cases full : m.length % 64 = 63
  · have len : s.bufLen = some 63 := absorbed.bufLen.trans (by rw [full]; rfl)
    have filled (i : Fin 64) (below : i.val < 63) :
        s.buf[i] = some (blockAt (m ++ [b]) (m.length / 64))[i] := by
      rw [blockAt_snoc_full b full, if_pos below]
      exact absorbed.buf i (full ▸ below)
    have last : (blockAt (m ++ [b]) (m.length / 64))[63] = b := blockAt_snoc_full b full 63
    have read := readBlock_writeByte_last filled
    rw [last] at read
    exact ⟨_, execUpdate_next_iff.mpr (.drained _ _ _ absorbed.phase absorbed.totalBits room len absorbed.h read),
      (absorbed.drain b full).respond _ _⟩
  · have more : BitVec.ofNat 6 (m.length % 64) ≠ 63 := by
      intro last
      exact full (by simpa using congrArg BitVec.toNat last)
    exact ⟨_, execUpdate_next_iff.mpr (.appended _ _ absorbed.phase absorbed.totalBits room absorbed.bufLen more),
      (absorbed.append b full).respond _ _⟩

/-- Settles O39: INIT takes in the empty message, and an UPDATE one byte more. -/
theorem updatesAbsorbTheMessage : Obligations.UpdatesAbsorbTheMessage := by
  unfold Obligations.UpdatesAbsorbTheMessage
  exact ⟨fun s p => ⟨_, exec_init_of_not_faulted p, (absorbed_startMessage s).respond _ _⟩,
    fun b m s absorbed fits => absorbed.exec_update b fits⟩

/-! ### FINALIZE (42_finalize.md R130 to R136) -/

/-- The bytes of a message after its whole blocks: those that stand in BUF. -/
def remainder (m : List Byte) : List Byte := m.drop (64 * (m.length / 64))

theorem remainder_length (m : List Byte) : (remainder m).length = m.length % 64 := by
  rw [remainder, List.length_drop]
  omega

theorem remainder_getD (m : List Byte) (i : Nat) : (remainder m).getD i 0 = m.getD (64 * (m.length / 64) + i) 0 := by
  simp [remainder, List.getD]

theorem Absorbed.readPrefix {m : List Byte} {s : State} (absorbed : Absorbed m s) :
    Sys2Proof.Machine.readPrefix s.buf (m.length % 64) = some (remainder m) := by
  refine (readPrefix_eq_some (by omega)).mpr ⟨remainder_length m, fun i below => ?_⟩
  rw [remainder_getD]
  exact absorbed.buf i below

/-- The digest of the message is H after its whole blocks, compressed with the padded blocks of its remainder. -/
theorem sha256_eq (m : List Byte) :
    sha256 m = serialize
      ((finalBlocks (remainder m) (BitVec.ofNat 64 (8 * m.length))).foldl compress
        ((blocksOf m).foldl compress iv)) := by
  rw [sha256, blocksOf_paddedMessage m (remainder m) (remainder_length m) fun i _ => remainder_getD m i,
    List.foldl_append]

theorem Absorbed.exec_finalize {m : List Byte} {s : State} (absorbed : Absorbed m s) :
    ∃ y, exec .finalize s = .next ((s.endMessage y).respond true (some (sha256 m))) := by
  have index : (BitVec.ofNat 6 (m.length % 64)).toNat = m.length % 64 := Nat.mod_eq_of_lt (by omega)
  have read : Sys2Proof.Machine.readPrefix s.buf (BitVec.ofNat 6 (m.length % 64)).toNat = some (remainder m) :=
    index.symm ▸ absorbed.readPrefix
  rw [sha256_eq]
  exact ⟨_, execFinalize_next_iff.mpr
    (.ended _ _ _ _ _ absorbed.phase absorbed.bufLen absorbed.totalBits read absorbed.h rfl)⟩

/-- Settles O40: the blocks that FINALIZE compresses are the end of the padded message. -/
theorem finalizeAnswersTheMessageDigest : Obligations.FinalizeAnswersTheMessageDigest := by
  unfold Obligations.FinalizeAnswersTheMessageDigest
  intro m s absorbed _
  obtain ⟨y, ended⟩ := absorbed.exec_finalize
  exact ⟨_, _, ended, rfl, rfl⟩

/-! ### A host's sequence for one message (70_reset_and_hazards.md R173, R174) -/

/-- The answer to a performed INIT or UPDATE. -/
def acknowledgement : Output := .response { ok := true, status := 0x01, digest := none }

/-- The engine has taken in the message `m` without a fault, the host has `actions` still to do and has received `out`. -/
structure MidMessage (m : List Byte) (actions : List HostAction) (out : List Output) (s : State) : Prop where
  absorbed : Absorbed m s
  clear    : s.faultCode = .none
  host     : s.host = actions
  out      : s.out = out

theorem status_of_active_clear {s : State} (p : s.phase = .active) (clear : s.faultCode = .none) :
    s.status = 0x01 := by
  rw [status_of_phase_active p, clear]
  decide

theorem status_of_done_clear {s : State} (p : s.phase = .done) (clear : s.faultCode = .none) : s.status = 0x02 := by
  rw [status_of_phase_done p, clear]
  decide

/-- A command other than FINALIZE that leaves the engine with a message taken in keeps FAULT_CODE and is acknowledged. -/
theorem midMessage_after_exec {i : Instr} {s t : State} {m : List Byte} (p : s.phase ≠ .faulted)
    (clear : s.faultCode = .none) (other : i ≠ .finalize) (run : exec i s = .next t) (absorbed : Absorbed m t) :
    MidMessage m s.host (s.out ++ [acknowledgement]) t := by
  have unfaulted : t.phase ≠ .faulted := by simp [absorbed.phase]
  have clear' : t.faultCode = .none := by
    obtain ⟨-, kept⟩ | ⟨code, -, entry⟩ := exec_keeps_or_faults p run
    · exact kept.trans clear
    · exact absurd (entry ▸ State.raiseUsageFault_phase code s) unfaulted
  refine ⟨absorbed, clear', exec_host run, ?_⟩
  cases exec_answered run with
  | denied faulted _ => exact absurd faulted unfaulted
  | acknowledged _ _ out => rw [out, status_of_active_clear absorbed.phase clear']; rfl
  | digested _ _ final _ _ => exact absurd (Command.instr.inj final) other

theorem step_init_of_clear {s : State} {rest : List HostAction} (p : s.phase ≠ .faulted) (clear : s.faultCode = .none)
    (given : s.host = .command (encode .init) :: rest) :
    ∃ t, step s = .next t ∧ MidMessage [] rest (s.out ++ [acknowledgement]) t := by
  have run := exec_init_of_not_faulted (s := { s with host := rest }) p
  exact ⟨_, (step_of_instr_word p given (decode_encode .init)).trans run,
    midMessage_after_exec (i := .init) (s := { s with host := rest }) p clear (by simp) run
      ((absorbed_startMessage _).respond _ _)⟩

theorem MidMessage.step_update {m : List Byte} {b : Byte} {rest : List HostAction} {out : List Output} {s : State}
    (mid : MidMessage m (.command (encode (.update b)) :: rest) out s) (fits : m.length + 1 < 2 ^ 61) :
    ∃ t, step s = .next t ∧ MidMessage (m ++ [b]) rest (out ++ [acknowledgement]) t := by
  obtain ⟨absorbed, clear, given, rfl⟩ := mid
  have p : s.phase ≠ .faulted := by simp [absorbed.phase]
  obtain ⟨t, run, absorbed'⟩ := (absorbed.withHost rest).exec_update b fits
  exact ⟨t, (step_of_instr_word p given (decode_encode (.update b))).trans run,
    midMessage_after_exec (s := { s with host := rest }) p clear (by simp) run absorbed'⟩

/-- The UPDATEs of the bytes `new`, after the message `m`. -/
theorem MidMessage.run_updates {new m : List Byte} {rest : List HostAction} {out : List Output} {s : State}
    (mid : MidMessage m ((new.map fun b => .command (encode (.update b))) ++ rest) out s)
    (fits : m.length + new.length < 2 ^ 61) :
    ∃ t, run new.length s = .next t ∧
      MidMessage (m ++ new) rest (out ++ List.replicate new.length acknowledgement) t := by
  induction new generalizing m out s with
  | nil => exact ⟨s, run_zero s, by simpa using mid⟩
  | cons b new ih =>
    rw [List.length_cons] at fits
    obtain ⟨u, first, mid'⟩ := mid.step_update (by omega)
    obtain ⟨t, more, mid''⟩ := ih mid' (by rw [List.length_append, List.length_singleton]; omega)
    refine ⟨t, (run_succ first).trans more, ?_⟩
    simpa [List.replicate_succ] using mid''

theorem MidMessage.step_finalize {m : List Byte} {rest : List HostAction} {out : List Output} {s : State}
    (mid : MidMessage m (.command (encode .finalize) :: rest) out s) :
    ∃ t, step s = .next t ∧ t.phase = .done ∧ t.faultCode = .none ∧ t.host = rest ∧
      t.out = out ++ [.response { ok := true, status := 0x02, digest := some (sha256 m) }] := by
  obtain ⟨absorbed, clear, given, rfl⟩ := mid
  obtain ⟨y, ended⟩ := (absorbed.withHost rest).exec_finalize
  refine ⟨_, (step_of_instr_word (by simp [absorbed.phase]) given (decode_encode .finalize)).trans ended,
    rfl, clear, rfl, ?_⟩
  have status : (State.endMessage y { s with host := rest }).status = 0x02 := status_of_done_clear rfl clear
  rw [State.respond_out, status, State.endMessage_out]

/-- Settles O41: INIT, the UPDATEs by induction on the message, FINALIZE. -/
theorem messageRunAnswersItsDigest : Obligations.MessageRunAnswersItsDigest := by
  unfold Obligations.MessageRunAnswersItsDigest
  intro m s rest short p clear given
  obtain ⟨u, init, started⟩ := step_init_of_clear p clear given
  obtain ⟨v, updates, taken⟩ := started.run_updates (by simpa using short)
  obtain ⟨t, final, phase, code, host, out⟩ := taken.step_finalize
  refine ⟨t, ?_, phase, code, host, ?_⟩
  · calc run (m.length + 2) s
        = run (m.length + 1) u := run_succ init
      _ = run 1 v := run_add updates
      _ = .next t := run_succ final
  · simpa [List.replicate_succ, acknowledgement] using out

end Sys2Proof.Machine
end

section
/-! PROOFS. STATUS (10_state.md R27; 20_memory.md R46), the waiting engine, and the order in which actions are taken
(20_memory.md R48, 70_reset_and_hazards.md R176). -/

namespace Sys2Proof.Machine

/-! ### The fields of STATUS (10_state.md R27) -/

theorem status_phaseField (s : State) : s.status.extractLsb' 0 2 = s.phase.code :=
  BitVec.extractLsb'_append_eq_right

theorem status_zeroField (s : State) : s.status.extractLsb' 2 2 = 0 :=
  (BitVec.extractLsb'_append_eq_of_le (by omega)).trans BitVec.extractLsb'_append_eq_right

theorem status_faultCodeField (s : State) : s.status.extractLsb' 4 4 = s.faultCode.code :=
  (BitVec.extractLsb'_append_eq_of_le (by omega)).trans BitVec.extractLsb'_append_eq_left

/-- Settles O3: the three fields, and the codes one by one. -/
theorem statusLayout : Obligations.StatusLayout := by
  unfold Obligations.StatusLayout
  intro s
  rw [status_phaseField, status_faultCodeField]
  refine ⟨status_zeroField s, ?_, ?_⟩
  · cases s.phase <;> rfl
  · cases s.faultCode <;> rfl

/-- Settles O4: the outcome of a step that takes a sample. -/
theorem statusSampleHasNoSideEffect : Obligations.StatusSampleHasNoSideEffect := by
  unfold Obligations.StatusSampleHasNoSideEffect
  exact fun s rest given => step_next_iff.mpr (.sampled rest given)

/-- Settles O5: without an action the step is the wait. -/
theorem quiescentEngineIsUnchanged : Obligations.QuiescentEngineIsUnchanged := by
  unfold Obligations.QuiescentEngineIsUnchanged
  exact fun s given => step_of_nothing given

/-! ### Actions and answers -/

/-- How many of the actions are answered: the commands and the samples. -/
def answerCount (actions : List HostAction) : Nat := (actions.filter fun a => a ≠ HostAction.reset).length

theorem answerCount_append (first more : List HostAction) :
    answerCount (first ++ more) = answerCount first + answerCount more := by
  simp [answerCount]

/-- What the host receives in a step: one output for a command or a sample, nothing for a reset. -/
theorem step_out {s t : State} (taken : step s = .next t) :
    ∃ new, t.out = s.out ++ new ∧ new.length = answerCount (s.host.take 1) := by
  cases step_next_iff.mp taken with
  | waited given => exact ⟨[], by simp, by rw [given]; rfl⟩
  | reset rest given => exact ⟨[], by simp, by rw [given]; rfl⟩
  | sampled rest given => exact ⟨_, State.sample_out _, by rw [given]; rfl⟩
  | commanded w rest t given _ =>
    have one : answerCount (s.host.take 1) = 1 := by rw [given]; rfl
    cases step_answered given taken with
    | denied _ out | acknowledged _ _ out | digested _ _ _ _ out => exact ⟨_, out, one.symm⟩

theorem run_host_out {n : Nat} {s t : State} (whole : run n s = .next t) :
    t.host = s.host.drop n ∧ ∃ new, t.out = s.out ++ new ∧ new.length = answerCount (s.host.take n) := by
  induction n generalizing s with
  | zero =>
    cases whole
    exact ⟨rfl, [], by simp, rfl⟩
  | succ n ih =>
    obtain ⟨u, first, more⟩ := run_succ_next whole
    obtain ⟨new, out, count⟩ := step_out first
    obtain ⟨host, new', out', count'⟩ := ih more
    rw [step_host first] at host count'
    refine ⟨by simpa using host, new ++ new', by rw [out', out, List.append_assoc], ?_⟩
    rw [List.length_append, count, count', Nat.add_comm n 1, List.take_add, answerCount_append, List.drop_one]

/-- Settles O7, by induction on the number of steps: each takes the first action and answers it. -/
theorem actionsAreTakenInOrder : Obligations.ActionsAreTakenInOrder := by
  unfold Obligations.ActionsAreTakenInOrder
  exact fun n s t whole => run_host_out whole

end Sys2Proof.Machine
end

section
/-! PROOFS. What a step does to PHASE (10_state.md R25), which command writes which element (R33), and the time of a
command (70_reset_and_hazards.md R178). -/

namespace Sys2Proof.Machine

/-! ### PHASE (10_state.md R25) -/

/-- What a command does to the phase of an engine that is not faulted. -/
theorem exec_phase_cases {i : Instr} {s t : State} (p : s.phase ≠ .faulted) (run : exec i s = .next t) :
    t.phase = .faulted ∨ t.phase = s.phase ∨ (i = .init ∧ t.phase = .active) ∨
      (i = .finalize ∧ s.phase = .active ∧ t.phase = .done) := by
  have outcome := exec_next_iff.mp run
  cases i with
  | init =>
    cases outcome with
    | rejected faulted => exact absurd faulted p
    | started _ => simp
  | update b =>
    cases outcome with
    | rejected faulted => exact absurd faulted p
    | notInitialized _ | afterFinalize _ | overflowed _ _ => simp
    | appended _ _ _ _ _ _ _ | drained _ _ _ _ _ _ _ _ _ => simp
  | finalize =>
    cases outcome with
    | rejected faulted => exact absurd faulted p
    | notInitialized _ | afterFinalize _ => simp
    | ended _ _ _ _ _ active _ _ _ _ _ => simp [active]

/-- A change of phase, by the action that makes it. -/
inductive PhaseChange (s t : State) : Prop where
  | reset (rest : List HostAction) (given : s.host = .reset :: rest) (after : t.phase = .idle)
  | faulted (w : CmdWord) (rest : List HostAction) (given : s.host = .command w :: rest) (before : s.phase ≠ .faulted)
      (after : t.phase = .faulted)
  | init (w : CmdWord) (rest : List HostAction) (given : s.host = .command w :: rest) (d : decode w = .instr .init)
      (before : s.phase ≠ .faulted) (after : t.phase = .active)
  | finalize (w : CmdWord) (rest : List HostAction) (given : s.host = .command w :: rest)
      (d : decode w = .instr .finalize) (before : s.phase = .active) (after : t.phase = .done)

theorem step_phaseChange {s t : State} (taken : step s = .next t) (changed : t.phase ≠ s.phase) : PhaseChange s t := by
  cases step_next_iff.mp taken with
  | waited _ => exact absurd rfl changed
  | reset rest given => exact .reset rest given rfl
  | sampled rest _ => exact absurd rfl changed
  | commanded w rest t given outcome =>
    cases outcome with
    | rejected _ => exact absurd rfl changed
    | illegal p _ => exact .faulted w rest given p rfl
    | performed i t p d run =>
      obtain after | same | ⟨rfl, after⟩ | ⟨rfl, before, after⟩ := exec_phase_cases p run
      · exact .faulted w rest given p after
      · exact absurd same changed
      · exact .init w rest given d p after
      · exact .finalize w rest given d before after

/-- Settles O34: each phase is entered by one of the four changes of phase, and FAULTED left by one of them. -/
theorem phaseTransitions : Obligations.PhaseTransitions := by
  unfold Obligations.PhaseTransitions
  intro s t taken changed
  cases step_phaseChange taken changed with
  | reset rest given after => simp [after, given]
  | faulted w rest given before after => simp [after, given, before]
  | init w rest given d before after => simp [after, given, d, before]
  | finalize w rest given d before after => simp [after, given, d, before]

/-! ### The elements a command writes (10_state.md R33) -/

/-- What an UPDATE that does not end faulted writes. -/
structure UpdateWrites (b : Byte) (s t : State) : Prop where
  h     : t.h = s.h ∨ s.bufLen = some 63
  buf   : ∃ n, s.bufLen = some n ∧ t.buf = writeByte s.buf n b
  phase : t.phase = s.phase

theorem exec_update_writes {b : Byte} {s t : State} (run : exec (.update b) s = .next t)
    (performed : t.phase ≠ .faulted) : UpdateWrites b s t := by
  cases execUpdate_next_iff.mp run with
  | rejected p => exact absurd p performed
  | notInitialized _ | afterFinalize _ | overflowed _ _ => exact absurd rfl performed
  | appended l n _ _ _ len _ => exact ⟨.inl rfl, ⟨n, len, rfl⟩, rfl⟩
  | drained l x blk _ _ _ len _ _ => exact ⟨.inr len, ⟨63, len, rfl⟩, rfl⟩

/-- A command that does not end faulted was legal, and it was performed. -/
theorem step_performed {s t : State} {w : CmdWord} {rest : List HostAction} (given : s.host = .command w :: rest)
    (taken : step s = .next t) (performed : t.phase ≠ .faulted) :
    ∃ i, decode w = .instr i ∧ s.phase ≠ .faulted ∧ exec i { s with host := rest } = .next t := by
  rw [step_of_action given, performAction_command] at taken
  cases performCommand_next_iff.mp taken with
  | rejected p => exact absurd p performed
  | illegal _ _ => exact absurd rfl performed
  | performed i _ p d run => exact ⟨i, d, p, run⟩

/-- A command that ends faulted writes nothing of the HashState. -/
theorem step_faulted_keeps_hashState {s t : State} {w : CmdWord} {rest : List HostAction}
    (given : s.host = .command w :: rest) (taken : step s = .next t) (faulted : t.phase = .faulted) :
    t.h = s.h ∧ t.buf = s.buf ∧ t.bufLen = s.bufLen ∧ t.totalBits = s.totalBits := by
  by_cases p : s.phase = .faulted
  · rw [step_of_command_faulted p given] at taken
    cases taken
    exact ⟨rfl, rfl, rfl, rfl⟩
  · obtain ⟨code, -, rfl⟩ := faultsArePrecise s t w rest p given taken faulted
    exact ⟨rfl, rfl, rfl, rfl⟩

/-- Settles O35: a performed command by its kind; `faultsArePrecise` and the rejection for the others. -/
theorem accessSummary : Obligations.AccessSummary := by
  unfold Obligations.AccessSummary
  intro s t w rest given taken
  refine ⟨fun performed => ?_, step_faulted_keeps_hashState given taken⟩
  obtain ⟨i, d, p, run⟩ := step_performed given taken performed
  have code : t.faultCode = s.faultCode := by
    obtain ⟨-, kept⟩ | ⟨code, -, rfl⟩ := exec_keeps_or_faults (s := { s with host := rest }) p run
    · exact kept
    · exact absurd rfl performed
  refine ⟨⟨i, d⟩, code, ?_⟩
  cases i with
  | init =>
    rw [exec_init_of_not_faulted (s := { s with host := rest }) p] at run
    cases run
    simp [d]
  | update b =>
    obtain ⟨h, ⟨n, len, buf⟩, phase⟩ := exec_update_writes run performed
    have others (i : Fin 64) (other : i.val ≠ n.toNat) : t.buf[i] = s.buf[i] := by
      rw [buf]
      exact writeByte_other s.buf n b i other
    have written : t.buf[n.toNat]'n.isLt = some b := by simp [buf]
    simp only [d]
    refine ⟨?_, by simp, ?_, fun _ _ => phase⟩
    · obtain same | full := h
      · exact .inl same
      · exact .inr (.inr (.inr ⟨⟨b, rfl⟩, full⟩))
    · rintro _ ⟨⟩
      exact ⟨n, len, written, others⟩
  | finalize => simp [d]

/-! ### The time of a command (70_reset_and_hazards.md R178) -/

/-- A command that fails a check of R151 ends faulted. -/
theorem exec_faults_unless_passes {i : Instr} {s t : State} (run : exec i s = .next t) (performed : t.phase ≠ .faulted) :
    PassesChecks i s := by
  have unfaulted : s.phase ≠ .faulted := by
    intro p
    rw [exec_of_faulted i p] at run
    cases run
    exact performed p
  refine ⟨unfaulted, fun notInit => ?_, ?_⟩
  · cases p : s.phase with
    | active => rfl
    | faulted => exact absurd p unfaulted
    | idle =>
      rw [exec_of_idle notInit p] at run
      cases run
      exact absurd rfl performed
    | done =>
      rw [exec_of_done notInit p] at run
      cases run
      exact absurd rfl performed
  · rintro b rfl full
    cases execUpdate_next_iff.mp run with
    | rejected p => exact performed p
    | notInitialized _ | afterFinalize _ | overflowed _ _ => exact performed rfl
    | appended l _ _ total room _ _ => exact room (Option.some.inj (total.symm.trans full))
    | drained l _ _ _ total room _ _ _ => exact room (Option.some.inj (total.symm.trans full))

/-- A command that answers is performed exactly when it passes the checks. -/
theorem exec_unfaulted_iff_passes {i : Instr} {s t : State} (run : exec i s = .next t) :
    t.phase ≠ .faulted ↔ PassesChecks i s :=
  ⟨exec_faults_unless_passes run, fun pass => pass.exec_unfaulted run⟩

theorem commandTime_init {p : Config.Params} {s : State} (pass : PassesChecks .init s) :
    commandTime p .init s = some p.tInit := if_neg pass.unfaulted

theorem commandTime_update {p : Config.Params} {b : Byte} {s : State} (pass : PassesChecks (.update b) s) :
    commandTime p (.update b) s = some (if s.bufLen = some 63 then p.tUpdateCompress else p.tUpdate) :=
  if_pos ⟨pass.active (by simp), pass.room b rfl⟩

theorem commandTime_finalize {p : Config.Params} {s : State} (pass : PassesChecks .finalize s) :
    commandTime p .finalize s = some p.tFinalize := if_pos (pass.active (by simp))

/-- Only a command that passes the checks has a time. -/
theorem commandTime_ne_none_iff (p : Config.Params) (i : Instr) (s : State) :
    commandTime p i s ≠ none ↔ PassesChecks i s := by
  constructor
  · intro timed
    cases i with
    | init => exact ⟨fun faulted => timed (if_pos faulted), by simp, by simp⟩
    | update b =>
      have ⟨active, room⟩ := not_not.mp fun unchecked => timed (if_neg unchecked)
      exact ⟨by simp [active], fun _ => active, fun _ _ => room⟩
    | finalize =>
      have active := not_not.mp fun inactive => timed (if_neg inactive)
      exact ⟨by simp [active], fun _ => active, by simp⟩
  · intro pass
    cases i with
    | init => simp [commandTime_init pass]
    | update b => simp [commandTime_update pass]
    | finalize => simp [commandTime_finalize pass]

/-- Settles O43: a command has a time, and is performed, exactly when it passes the checks. -/
theorem performedCommandsHaveATime : Obligations.PerformedCommandsHaveATime := by
  unfold Obligations.PerformedCommandsHaveATime
  intro p i s t run
  rw [exec_unfaulted_iff_passes run]
  refine ⟨commandTime_ne_none_iff p i s, ?_, ?_, ?_⟩
  · rintro rfl
    exact commandTime_init
  · rintro b rfl
    exact commandTime_update
  · rintro rfl
    exact commandTime_finalize

end Sys2Proof.Machine
end

section
/-! PROOFS. Several engines (60_exceptions.md R160): a step of one is a write to its place in the platform. -/

namespace Sys2Proof.Machine

variable {n : Nat} {p q q' : Platform n} {i j : Fin n}

theorem stepEngine_next_iff :
    stepEngine j p = .next q ↔ ∃ t, step p.engines[j] = .next t ∧ q = ⟨p.engines.set j t⟩ := by
  unfold stepEngine
  cases step p.engines[j] <;> simp [eq_comm]

/-- The engine that steps. -/
theorem stepEngine_self (one : stepEngine j p = .next q) : step p.engines[j] = .next q.engines[j] := by
  obtain ⟨t, taken, rfl⟩ := stepEngine_next_iff.mp one
  simpa using taken

/-- The other engines (60_exceptions.md R160). -/
theorem stepEngine_other (one : stepEngine j p = .next q) (other : i ≠ j) : q.engines[i] = p.engines[i] := by
  obtain ⟨t, -, rfl⟩ := stepEngine_next_iff.mp one
  simp [Fin.val_ne_of_ne other.symm]

/-- Steps of two engines come to the same in either order: each writes its own place. -/
theorem stepEngine_comm (other : i ≠ j) (first : stepEngine j p = .next q) (second : stepEngine i p = .next q') :
    ∃ r, stepEngine i q = .next r ∧ stepEngine j q' = .next r := by
  have keptI := stepEngine_other first other
  have keptJ := stepEngine_other second other.symm
  obtain ⟨t, taken, rfl⟩ := stepEngine_next_iff.mp first
  obtain ⟨u, taken', rfl⟩ := stepEngine_next_iff.mp second
  rw [← keptI] at taken'
  rw [← keptJ] at taken
  refine ⟨_, stepEngine_next_iff.mpr ⟨u, taken', rfl⟩, stepEngine_next_iff.mpr ⟨t, taken, ?_⟩⟩
  exact congrArg Platform.mk (Vector.set_comm _ _ (Fin.val_ne_of_ne other.symm))

end Sys2Proof.Machine

namespace Sys2Proof.Machine

/-- Settles O42: a step writes the place of its engine and reads no other. -/
theorem enginesAreIndependent : Obligations.EnginesAreIndependent := by
  unfold Obligations.EnginesAreIndependent
  exact fun n p j => ⟨fun q one => ⟨stepEngine_self one, fun i other => stepEngine_other one other⟩,
    fun i q q' other first second => stepEngine_comm other first second⟩

end Sys2Proof.Machine
end

section
/-! PROOFS. The rotation (00_scope.md R11), the number of padded blocks (42_finalize.md R135), and two Compress calls of the
test vectors (95_test_vectors.md 2.3). -/

namespace Sys2Proof.Machine

/-- Settles O14: the bit law of the rotation, which holds for the amount 0 too. -/
theorem rotateRightBits : Obligations.RotateRightBits := by
  unfold Obligations.RotateRightBits
  exact fun x n i _ small below => getLsbD_rotr x (by omega) below

theorem finalBlocks_length (r : List Byte) (l : BitCount) :
    (finalBlocks r l).length = if r.length ≤ 55 then 1 else 2 := by
  rw [finalBlocks]
  split <;> rfl

theorem blocksOf_length (bytes : List Byte) : (blocksOf bytes).length = bytes.length / 64 := by
  rw [blocksOf, List.length_map, List.length_range]

/-- Settles O27, from the length of the padded message. -/
theorem paddedMessageBlockCount : Obligations.PaddedMessageBlockCount := by
  unfold Obligations.PaddedMessageBlockCount
  refine ⟨finalBlocks_length, fun m => ?_⟩
  have total := paddedMessage_length m
  rw [blocksOf_length]
  split <;> omega

/-- Settles O20: both calls evaluated (95_test_vectors.md 2.3). -/
theorem compressExamples : Obligations.CompressExamples := by
  unfold Obligations.CompressExamples
  exact ⟨by decide +kernel, by decide +kernel⟩

end Sys2Proof.Machine
end

section
/-! PROOFS. The constants (40_compress.md R86, 41_init_update.md R110) against the spec's independent route: the
fractional parts of the roots of the first primes. -/

namespace Sys2Proof.Machine

/-- The whole part of the `k`-th root of `n`: the largest `a` with `a ^ k ≤ n`. -/
def rootFloor (k n : Nat) : Nat := Nat.findGreatest (fun a => a ^ k ≤ n) n

/-- The `k`-th root of `n` as a number of 2^-32ths: its whole part, then the fraction that the word `w` gives. -/
def rootWith (k n : Nat) (w : Word) : Nat := rootFloor k n * 2 ^ 32 + w.toNat

/-- The fraction of `rootWith` is the word. -/
theorem ofNat_rootWith (k n : Nat) (w : Word) : BitVec.ofNat 32 (rootWith k n w) = w := by
  apply BitVec.eq_of_toNat_eq
  rw [BitVec.toNat_ofNat, rootWith, Nat.mul_add_mod_self_right, Nat.mod_eq_of_lt w.isLt]

/-- `w` is the first 32 bits of the fractional part of the `k`-th root of `n`. -/
def IsRootFraction (k n : Nat) (w : Word) : Prop :=
  rootWith k n w ^ k ≤ n * 2 ^ (32 * k) ∧ n * 2 ^ (32 * k) < (rootWith k n w + 1) ^ k

/-- The first 64 primes. -/
def firstPrimes : List Nat :=
  [2, 3, 5, 7, 11, 13, 17, 19] ++
  [23, 29, 31, 37, 41, 43, 47, 53] ++
  [59, 61, 67, 71, 73, 79, 83, 89] ++
  [97, 101, 103, 107, 109, 113, 127, 131] ++
  [137, 139, 149, 151, 157, 163, 167, 173] ++
  [179, 181, 191, 193, 197, 199, 211, 223] ++
  [227, 229, 233, 239, 241, 251, 257, 263] ++
  [269, 271, 277, 281, 283, 293, 307, 311]

/-- Below 18 ^ 2 a number is prime when no smaller number below 18 divides it. -/
theorem prime_iff_no_small_divisor {n : Nat} (small : n < 18 ^ 2) :
    n.Prime ↔ 2 ≤ n ∧ ∀ d, d < 18 → 2 ≤ d → d ∣ n → d = n := by
  constructor
  · intro prime
    exact ⟨prime.two_le, fun d _ proper divides => (prime.eq_one_or_self_of_dvd d divides).resolve_left (by omega)⟩
  · rintro ⟨two, only⟩
    by_contra composite
    have square := Nat.minFac_sq_le_self (by omega) composite
    have below : n.minFac < 18 := lt_of_pow_lt_pow_left' 2 (square.trans_lt small)
    have whole := only _ below (Nat.minFac_prime (by omega)).two_le n.minFac_dvd
    exact composite (Nat.prime_def_minFac.mpr ⟨two, whole⟩)

/-- The table of primes leaves none out: up to its last entry it is what trial division keeps. -/
theorem filter_no_small_divisor_range :
    (List.range 312).filter (fun n => 2 ≤ n ∧ ∀ d, d < 18 → 2 ≤ d → d ∣ n → d = n) = firstPrimes := by
  decide +kernel

theorem filter_prime_range : (List.range 312).filter Nat.Prime = firstPrimes := by
  rw [← filter_no_small_divisor_range]
  refine List.filter_congr fun n listed => ?_
  have small := List.mem_range.mp listed
  simp only [prime_iff_no_small_divisor (show n < 18 ^ 2 by omega)]

theorem length_filter_range (P : Nat → Prop) [DecidablePred P] (n : Nat) :
    ((List.range n).filter P).length = Nat.count P n := by
  rw [Nat.count, List.countP_eq_length_filter]

/-- The place of a number among those below `n` that have a property is the count of those before it. -/
theorem count_filter_range (P : Nat → Prop) [DecidablePred P] {n t : Nat}
    (listed : t < ((List.range n).filter P).length) :
    P (((List.range n).filter P).getD t 0) ∧ Nat.count P (((List.range n).filter P).getD t 0) = t := by
  induction n with
  | zero => simp at listed
  | succ n ih =>
    rw [List.range_succ, List.filter_append] at listed ⊢
    by_cases early : t < ((List.range n).filter P).length
    · rw [List.getD_append _ _ _ _ early]
      exact ih early
    by_cases holds : P n
    · have upTo : t < ((List.range n).filter P).length + 1 := by simpa [holds] using listed
      have last : t = ((List.range n).filter P).length := by omega
      simp [holds, last, length_filter_range]
    · exact absurd (by simpa [holds] using listed) early

theorem firstPrimes_getD {t : Nat} (listed : t < 64) :
    (firstPrimes.getD t 0).Prime ∧ Nat.count Nat.Prime (firstPrimes.getD t 0) = t := by
  rw [← filter_prime_range]
  exact count_filter_range Nat.Prime (by rw [filter_prime_range]; exact listed)

theorem roundConstant_isRootFraction :
    ∀ t, t < 64 → IsRootFraction 3 (firstPrimes.getD t 0) (roundConstant t) := by
  unfold IsRootFraction
  decide +kernel

theorem iv_isRootFraction : ∀ j : Fin 8, IsRootFraction 2 (firstPrimes.getD j.val 0) iv[j] := by
  unfold IsRootFraction
  decide +kernel

/-- Settles O17: the primes from the table, and each root with the table's word as its fraction. -/
theorem constantsAreRootFractions : Obligations.ConstantsAreRootFractions := by
  unfold Obligations.ConstantsAreRootFractions
  refine ⟨fun t below => ?_, fun j => ?_⟩
  · obtain ⟨prime, place⟩ := firstPrimes_getD below
    obtain ⟨floor, ceiling⟩ := roundConstant_isRootFraction t below
    exact ⟨_, _, prime, place, floor, ceiling, (ofNat_rootWith _ _ _).symm⟩
  · obtain ⟨prime, place⟩ := firstPrimes_getD (t := j.val) (by omega)
    obtain ⟨floor, ceiling⟩ := iv_isRootFraction j
    exact ⟨_, _, prime, place, floor, ceiling, (ofNat_rootWith _ _ _).symm⟩

end Sys2Proof.Machine
end
